-- ==== Sys2Proof/Word.lean ====
section
/-! DEFINITION. The word type of the LS-8: every register, memory cell, address and operand is one byte
(10_state.md R10, 20_memory.md R33). -/

namespace Sys2Proof

/-- An 8-bit unsigned value (00_scope.md R5, `XLEN`). -/
abbrev Byte := BitVec 8

/-- A 4-bit instruction code, the field DDDD of the opcode byte (30_encoding.md R51). -/
abbrev Nibble := BitVec 4

/-- The index of one of the eight registers, and of one of the eight interrupt lines. -/
abbrev Index := Fin 8

end Sys2Proof
end

