-- ==== Sys2Proof/Config.lean ====
section
/-! DEFINITION. What is fixed for the machine (the constants of 00_scope.md R5) and the one free value: the inputs
that the environment chooses (10_state.md R24, "a draw under no law"). -/

namespace Sys2Proof

/-- The parameter `P_FLAGPOS` (00_scope.md R5, 92_eei_decisions.md D1): which of opcode bits 5 and 4 is the sets-PC flag. -/
inductive FlagPos where
  | doc      -- bit 5 = sets-PC, bit 4 = ALU: the normative layout
  | swapped  -- bit 5 = ALU, bit 4 = sets-PC: listed for comparison only (93_implementation_defined.md section 3)
  deriving DecidableEq, Repr

/-- An event of the external event source (10_state.md R24, 43_cycle.md R126). -/
inductive Event where
  | key (v : Byte)  -- a qualifying key press with its payload byte (60_exceptions.md R154)
  | cancel          -- the escape key (60_exceptions.md R155)
  | stop            -- an externally supplied stop request (60_exceptions.md R155)
  deriving DecidableEq, Repr

/-- The two inputs of one cycle: the batch of events read at step 0 and the timer poll read at step 2
(10_state.md R25 (a), (b); 43_cycle.md R125). -/
structure CycleInput where
  events : List Event
  tick   : Bool
  deriving DecidableEq, Repr, Inhabited

/-- No event and no tick: the input of every cycle of the deterministic schedule (43_cycle.md R136). -/
def CycleInput.quiet : CycleInput := { events := [], tick := false }

/-- FREE VALUE (log 2): the inputs the environment draws once the state's list of given inputs is used up. Nothing
constrains them (43_cycle.md R136: "every sequence is possible"; 93_implementation_defined.md U10, U11: "any value"). -/
opaque Config.freeInput : Nat → CycleInput

/-- `IM_INDEX`: R5 is the interrupt mask (10_state.md R11). -/
def Config.imIndex : Index := 5

/-- `IS_INDEX`: R6 is the interrupt status (10_state.md R11). -/
def Config.isIndex : Index := 6

/-- `SP_INDEX`: R7 is the stack pointer (10_state.md R11). -/
def Config.spIndex : Index := 7

/-- `MEMSIZE`: 256 cells, addresses 0..255 (20_memory.md R30). -/
def Config.memSize : Nat := 256

/-- `VEC_BASE`: the vector of line i is the cell `0xF8 + i` (60_exceptions.md R150). -/
def Config.vecBase : Byte := 0xF8

/-- `KEY_CELL`: the cell that carries the last event payload (60_exceptions.md R154). -/
def Config.keyCell : Byte := 0xF4

/-- `TIMER_LINE` (60_exceptions.md R145). -/
def Config.timerLine : Index := 0

/-- `EVENT_LINE` (60_exceptions.md R145). -/
def Config.eventLine : Index := 1

end Sys2Proof
end

