-- ==== Sys2Proof/Syntax.lean ====
section
/-! DEFINITION. The instructions of the LS-8: one constructor per row of opcode_table.json, in the table's order
(30_encoding.md R56). Operands are whole operand bytes: `a` is the byte at pc + 1 and `b` (or `imm`) the byte at
pc + 2 (30_encoding.md R54); a register operand above 7 is an instruction that raises `Fatal(RegRange)` when executed. -/

namespace Sys2Proof

inductive Instr where
  | nop
  | hlt
  | ret
  | iret
  | nop1 (x : Byte)
  | push (a : Byte)
  | pop (a : Byte)
  | prn (a : Byte)
  | pra (a : Byte)
  | inc (a : Byte)
  | dec (a : Byte)
  | not (a : Byte)
  | call (a : Byte)
  | int (a : Byte)
  | jmp (a : Byte)
  | jeq (a : Byte)
  | jne (a : Byte)
  | jgt (a : Byte)
  | jlt (a : Byte)
  | jle (a : Byte)
  | jge (a : Byte)
  | nop2 (x y : Byte)
  | ldi (a imm : Byte)
  | ld (a b : Byte)
  | st (a b : Byte)
  | add (a b : Byte)
  | sub (a b : Byte)
  | mul (a b : Byte)
  | div (a b : Byte)
  | mod (a b : Byte)
  | cmp (a b : Byte)
  | and (a b : Byte)
  | or (a b : Byte)
  | xor (a b : Byte)
  | shl (a b : Byte)
  | shr (a b : Byte)
  deriving DecidableEq, Repr

/-- The operand bytes of an instruction, in the order they stand in memory (20_memory.md R33; the formats Z, R, RR, RI, X1, X2 of 30_encoding.md). -/
def Instr.operands : Instr → List Byte
  | .nop | .hlt | .ret | .iret => []
  | .nop1 x => [x]
  | .push a | .pop a | .prn a | .pra a | .inc a | .dec a | .not a | .call a | .int a | .jmp a | .jeq a | .jne a
  | .jgt a | .jlt a | .jle a | .jge a => [a]
  | .nop2 x y => [x, y]
  | .ldi a imm => [a, imm]
  | .ld a b | .st a b | .add a b | .sub a b | .mul a b | .div a b | .mod a b | .cmp a b | .and a b | .or a b
  | .xor a b | .shl a b | .shr a b => [a, b]

/-- The operand bytes that are register indices (30_encoding.md R54): not the ignored bytes of NOP1 and NOP2 and not
LDI's immediate. -/
def Instr.registerOperands : Instr → List Byte
  | .nop | .hlt | .ret | .iret => []
  | .nop1 _ | .nop2 _ _ => []
  | .ldi a _ => [a]
  | .push a | .pop a | .prn a | .pra a | .inc a | .dec a | .not a | .call a | .int a | .jmp a | .jeq a | .jne a
  | .jgt a | .jlt a | .jle a | .jge a => [a]
  | .ld a b | .st a b | .add a b | .sub a b | .mul a b | .div a b | .mod a b | .cmp a b | .and a b | .or a b
  | .xor a b | .shl a b | .shr a b => [a, b]

end Sys2Proof
end

