-- ==== Sys2Proof/Decode.lean ====
section
/-! DEFINITION. The Decoder of 30_encoding.md: the field split of the opcode byte (R51, R52), the choice of the code
space (R53), the code tables (R55), the refusals in the order of R59, R60, operand fetch, R57 and R58; then the encoder. -/

namespace Sys2Proof

/-- The four fields of the opcode byte `AABCDDDD` (30_encoding.md R51). -/
structure Fields where
  aa   : BitVec 2   -- operand count
  b    : Bool       -- sets-PC flag
  c    : Bool       -- ALU flag
  dddd : Nibble     -- instruction code
  deriving DecidableEq, Repr

/-- The three code spaces an instruction code is looked up in (30_encoding.md R53). -/
inductive Space where
  | alu
  | nonFlow
  | flow
  deriving DecidableEq, Repr

/-- Why a byte sequence is no instruction. All but the last two are the one cause `Decode` of the machine. -/
inductive DecodeError where
  | operandCount3   -- AA = 3, refused at step 4 (30_encoding.md R59)
  | bothFlags       -- B = 1 and C = 1, refused at step 4 (30_encoding.md R60)
  | unassigned      -- the code space has no such code, refused at step 6 (30_encoding.md R58)
  | countMismatch   -- the code is assigned with another operand count, refused at step 6 (30_encoding.md R57)
  | operandMissing  -- the bytes end before the operands AA announces (the operand fetch of 43_cycle.md R130)
  | noOpcode        -- there is no byte at all
  deriving DecidableEq, Repr

/-- `P_FLAGPOS = doc`, the normative value (92_eei_decisions.md D1; log 13). -/
def flagPos : FlagPos := .doc

/-- The field split under a flag layout; it never fails (30_encoding.md R52). -/
def splitAs (p : FlagPos) (ir : Byte) : Fields :=
  let bit5 := ir.getLsbD 5
  let bit4 := ir.getLsbD 4
  { aa   := ir.extractLsb' 6 2
    b    := match p with | .doc => bit5 | .swapped => bit4
    c    := match p with | .doc => bit4 | .swapped => bit5
    dddd := ir.extractLsb' 0 4 }

/-- `decode(ir)` of 30_encoding.md R52: AA, B, C, DDDD of the opcode byte. -/
def split (ir : Byte) : Fields := splitAs flagPos ir

/-- The opcode byte with given fields under a flag layout (30_encoding.md R51: `ir = AA ++ B ++ C ++ DDDD`). -/
def joinAs (p : FlagPos) (f : Fields) : Byte :=
  let flags : BitVec 2 := match p with
    | .doc => BitVec.ofBool f.b ++ BitVec.ofBool f.c
    | .swapped => BitVec.ofBool f.c ++ BitVec.ofBool f.b
  f.aa ++ flags ++ f.dddd

/-- The opcode byte with given fields. -/
def join (f : Fields) : Byte := joinAs flagPos f

/-- The code space the two flags select (30_encoding.md R53); both flags select nothing (R60). -/
def Fields.space (f : Fields) : Option Space :=
  match f.b, f.c with
  | false, true => some .alu
  | true, false => some .flow
  | false, false => some .nonFlow
  | true, true => none

/-- An assigned code runs only with its architected operand count (30_encoding.md R57; log 24). -/
def withCount (n aa : BitVec 2) (i : Instr) : Except DecodeError Instr :=
  if aa = n then .ok i else .error .countMismatch

/-- The ALU column of 30_encoding.md R55. -/
def aluTable (aa : BitVec 2) (code : Nibble) (a b : Byte) : Except DecodeError Instr :=
  match code.toNat with
  | 0 => withCount 2 aa (.add a b)
  | 1 => withCount 2 aa (.sub a b)
  | 2 => withCount 2 aa (.mul a b)
  | 3 => withCount 2 aa (.div a b)
  | 4 => withCount 2 aa (.mod a b)
  | 5 => withCount 1 aa (.inc a)
  | 6 => withCount 1 aa (.dec a)
  | 7 => withCount 2 aa (.cmp a b)
  | 8 => withCount 2 aa (.and a b)
  | 9 => withCount 1 aa (.not a)
  | 10 => withCount 2 aa (.or a b)
  | 11 => withCount 2 aa (.xor a b)
  | 12 => withCount 2 aa (.shl a b)
  | 13 => withCount 2 aa (.shr a b)
  | _ => .error .unassigned

/-- The non-flow column of 30_encoding.md R55; code 0 is a no-op of every length (R58 (b); log 14). -/
def nonFlowTable (aa : BitVec 2) (code : Nibble) (a b : Byte) : Except DecodeError Instr :=
  match code.toNat with
  | 0 => if aa = 0 then .ok .nop else if aa = 1 then .ok (.nop1 a) else withCount 2 aa (.nop2 a b)
  | 1 => withCount 0 aa .hlt
  | 2 => withCount 2 aa (.ldi a b)
  | 3 => withCount 2 aa (.ld a b)
  | 4 => withCount 2 aa (.st a b)
  | 5 => withCount 1 aa (.push a)
  | 6 => withCount 1 aa (.pop a)
  | 7 => withCount 1 aa (.prn a)
  | 8 => withCount 1 aa (.pra a)
  | _ => .error .unassigned

/-- The flow-control column of 30_encoding.md R55. -/
def flowTable (aa : BitVec 2) (code : Nibble) (a : Byte) : Except DecodeError Instr :=
  match code.toNat with
  | 0 => withCount 1 aa (.call a)
  | 1 => withCount 0 aa .ret
  | 2 => withCount 1 aa (.int a)
  | 3 => withCount 0 aa .iret
  | 4 => withCount 1 aa (.jmp a)
  | 5 => withCount 1 aa (.jeq a)
  | 6 => withCount 1 aa (.jne a)
  | 7 => withCount 1 aa (.jgt a)
  | 8 => withCount 1 aa (.jlt a)
  | 9 => withCount 1 aa (.jle a)
  | 10 => withCount 1 aa (.jge a)
  | _ => .error .unassigned

/-- Step 6's lookup: the table of the selected space, keyed by DDDD and AA (43_cycle.md R131). -/
def lookup (f : Fields) (a b : Byte) : Except DecodeError Instr :=
  match f.space with
  | some .alu => aluTable f.aa f.dddd a b
  | some .nonFlow => nonFlowTable f.aa f.dddd a b
  | some .flow => flowTable f.aa f.dddd a
  | none => .error .bothFlags

/-- Step 5: the operand bytes AA announces, `a` before `b` (43_cycle.md R130), and the bytes after them. An operand
that is not fetched is 0 and unused. -/
def takeOperands (aa : BitVec 2) (rest : List Byte) : Option (Byte × Byte × List Byte) :=
  match aa.toNat, rest with
  | 0, tail => some (0, 0, tail)
  | 1, a :: tail => some (a, 0, tail)
  | 2, a :: b :: tail => some (a, b, tail)
  | _, _ => none

/-- The decoder: the instruction a byte sequence starts with and the bytes after it, or the first refusal in the order
of 30_encoding.md section 4 and 60_exceptions.md R144. -/
def decode : List Byte → Except DecodeError (Instr × List Byte)
  | [] => .error .noOpcode
  | ir :: rest =>
    let f := split ir
    if f.aa = 3 then .error .operandCount3
    else if f.b && f.c then .error .bothFlags
    else match takeOperands f.aa rest with
      | none => .error .operandMissing
      | some (a, b, tail) =>
        match lookup f a b with
        | .ok i => .ok (i, tail)
        | .error e => .error e

/-- The opcode fields of each instruction: AA from its format, B and C from its space, DDDD from 30_encoding.md R55
(the parameter `CODES`; log 13). -/
def Instr.fields : Instr → Fields
  | .nop => ⟨0, false, false, 0⟩
  | .hlt => ⟨0, false, false, 1⟩
  | .ret => ⟨0, true, false, 1⟩
  | .iret => ⟨0, true, false, 3⟩
  | .nop1 _ => ⟨1, false, false, 0⟩
  | .push _ => ⟨1, false, false, 5⟩
  | .pop _ => ⟨1, false, false, 6⟩
  | .prn _ => ⟨1, false, false, 7⟩
  | .pra _ => ⟨1, false, false, 8⟩
  | .inc _ => ⟨1, false, true, 5⟩
  | .dec _ => ⟨1, false, true, 6⟩
  | .not _ => ⟨1, false, true, 9⟩
  | .call _ => ⟨1, true, false, 0⟩
  | .int _ => ⟨1, true, false, 2⟩
  | .jmp _ => ⟨1, true, false, 4⟩
  | .jeq _ => ⟨1, true, false, 5⟩
  | .jne _ => ⟨1, true, false, 6⟩
  | .jgt _ => ⟨1, true, false, 7⟩
  | .jlt _ => ⟨1, true, false, 8⟩
  | .jle _ => ⟨1, true, false, 9⟩
  | .jge _ => ⟨1, true, false, 10⟩
  | .nop2 _ _ => ⟨2, false, false, 0⟩
  | .ldi _ _ => ⟨2, false, false, 2⟩
  | .ld _ _ => ⟨2, false, false, 3⟩
  | .st _ _ => ⟨2, false, false, 4⟩
  | .add _ _ => ⟨2, false, true, 0⟩
  | .sub _ _ => ⟨2, false, true, 1⟩
  | .mul _ _ => ⟨2, false, true, 2⟩
  | .div _ _ => ⟨2, false, true, 3⟩
  | .mod _ _ => ⟨2, false, true, 4⟩
  | .cmp _ _ => ⟨2, false, true, 7⟩
  | .and _ _ => ⟨2, false, true, 8⟩
  | .or _ _ => ⟨2, false, true, 10⟩
  | .xor _ _ => ⟨2, false, true, 11⟩
  | .shl _ _ => ⟨2, false, true, 12⟩
  | .shr _ _ => ⟨2, false, true, 13⟩

/-- The bytes of an instruction at ascending addresses: the opcode byte, then the operand bytes (20_memory.md R33). -/
def encode (i : Instr) : List Byte := join i.fields :: i.operands

/-- The length in bytes, `AA + 1` (30_encoding.md R50). -/
def Instr.size (i : Instr) : Nat := i.fields.aa.toNat + 1

/-- The three bytes of an instruction word numbered as opcode_table.json numbers its bits: byte k of the instruction is
bits 8k+7..8k; every bit from `nbits` up is 0. Three bytes is the longest instruction (30_encoding.md R50). -/
def wordBytes (nbits w : Nat) : List Byte :=
  let v := w % 2 ^ nbits
  [BitVec.ofNat 8 v, BitVec.ofNat 8 (v / 256), BitVec.ofNat 8 (v / 65536)]

/-- The instruction the decoder reads from the bytes of an instruction word, none where it refuses. -/
def decodeTableWord (nbits w : Nat) : Option Instr :=
  match decode (wordBytes nbits w) with
  | .ok (i, _) => some i
  | .error _ => none

end Sys2Proof
end

