-- ==== Sys2Proof/Machine/State.lean ====
section
/-! DEFINITION. The state of the LS-8 (10_state.md, the summary table and R26), the reasons a step can stop, and the
state after reset. State is plain data. -/

namespace Sys2Proof.Machine

/-- The six causes of a fatal error (60_exceptions.md R141). -/
inductive Cause where
  | decode    -- the opcode byte names no instruction
  | regRange  -- a register operand byte is above 7
  | memRange  -- a memory address is above 255
  | pcRange   -- the PC would be advanced past 255, or CALL's return address is past 255
  | divZero   -- DIV or MOD by a register that holds 0
  | intLine   -- INT with a register value of 0 or above 8
  deriving DecidableEq, Repr

/-- A record of the console output port (10_state.md R25 (c)); how a console renders it is outside the core (log 12). -/
inductive OutRecord where
  | prn (v : Byte)  -- shown as a decimal integer line
  | pra (v : Byte)  -- shown as the character with code v
  deriving DecidableEq, Repr

/-- A command of the host (10_state.md R25 (e)). -/
inductive HostCommand where
  | reset                      -- 70_reset_and_hazards.md R170
  | load (image : List Byte)   -- 70_reset_and_hazards.md R171
  | start                      -- 70_reset_and_hazards.md R172
  deriving DecidableEq, Repr

/-- Where the machine is in the host's lifecycle (70_reset_and_hazards.md R171, R172; log 3). -/
inductive Lifecycle where
  | reset    -- reset, nothing loaded yet: a load is the next move
  | loaded   -- an image is loaded: start is the next move
  | started  -- started: running, or ended until the next reset
  deriving DecidableEq, Repr

/-- Memory as the cells that do not hold their reset value 0: addresses strictly rising, no entry that holds 0, every
address below 256. An unlisted cell reads 0 (10_state.md R26, "0x00 in every cell"; log 6). -/
abbrev Memory := List Host.Cell

/-- Why a step stops with a fault: never. The type has no constructor, because the spec gives every fatal error an
effect on the state (60_exceptions.md R142), and that effect is the next state (log 1). Safe: nothing is left out. -/
inductive Fault where
  deriving DecidableEq, Repr

/-- Why a step is refused. -/
inductive Refusal where
  /-- Raised by an arm of `exec` whose instruction has no meaning yet, and by nothing else. Safe: the run stops. -/
  | notModelled (mnemonic : String)
  /-- Raised by the host's command port for a command outside the order reset, load, start: "not a move in the model"
  (93_implementation_defined.md U19, 70_reset_and_hazards.md R171, R172; log 3). Safe: the run stops. -/
  | hostOutOfOrder (command : HostCommand)
  deriving DecidableEq, Repr

/-- The machine. -/
structure State where
  /-- R0..R7; R5 = IM, R6 = IS, R7 = SP (10_state.md R10, R11). -/
  regs : Vector Byte 8
  /-- The program counter (10_state.md R14). -/
  pc : Byte
  /-- The flags register, stored as 8 bits (10_state.md R16). -/
  fl : Byte
  /-- The 256 memory cells (20_memory.md R30). -/
  mem : Memory
  /-- The running flag (10_state.md R22). -/
  running : Bool
  /-- The fatal status (10_state.md R22). -/
  fatal : Option Cause
  /-- The console output trace, oldest record first (10_state.md R25 (c)). -/
  out : List OutRecord
  /-- The inputs given for the coming cycles, the next cycle's first (10_state.md R24, 43_cycle.md R136; log 2). -/
  inputs : List CycleInput
  /-- The model's own counter of the free inputs drawn so far (log 2); no statement rests on its value. -/
  drawn : Nat
  /-- The commands the host has issued and the machine has not yet accepted (10_state.md R25 (e); log 3). -/
  host : List HostCommand
  /-- The host's lifecycle (log 3). -/
  life : Lifecycle
  deriving DecidableEq, Repr

/-- The registers after reset (10_state.md R26): `IM_RESET` = 1, `IS_RESET` = 0, `SP_RESET` = 0xF4. -/
def resetRegs : Vector Byte 8 := #v[0x00, 0x00, 0x00, 0x00, 0x00, 0x01, 0x00, 0xF4]

/-- The machine right after reset (10_state.md R26). -/
def State.reset : State :=
  { regs := resetRegs
    pc := 0x00
    fl := 0x00
    mem := []
    running := false
    fatal := none
    out := []
    inputs := []
    drawn := 0
    host := []
    life := .reset }

end Sys2Proof.Machine
end

