-- ==== Sys2Proof/Machine/Ops.lean ====
section
/-! DEFINITION. The primitives of 00_scope.md R6 over registers, memory, stack and PC, the fatal error, interrupt entry
and the return from one. -/

namespace Sys2Proof.Machine

/-! ### Registers (10_state.md section 1) -/

/-- `x[i]` of a register in the file (10_state.md R10). -/
def State.reg (s : State) (i : Index) : Byte := s.regs[i]

/-- `x[i] <- v` of a register in the file (10_state.md R12). -/
def State.setReg (s : State) (i : Index) (v : Byte) : State := { s with regs := s.regs.set i v }

/-- IM is R5 (10_state.md R11, R19). -/
def State.im (s : State) : Byte := s.reg Config.imIndex

/-- IS is R6 (10_state.md R11, R20). -/
def State.is (s : State) : Byte := s.reg Config.isIndex

/-- SP is R7 (10_state.md R11, R21). -/
def State.sp (s : State) : Byte := s.reg Config.spIndex

/-- `IS <- IS | 2^i`: line i becomes pending (10_state.md R20). -/
def State.request (s : State) (line : Index) : State :=
  s.setReg Config.isIndex (s.is ||| BitVec.twoPow 8 line)

/-- `IS <- IS & ~(2^i)`: line i is no longer pending (60_exceptions.md R149). -/
def State.acknowledge (s : State) (line : Index) : State :=
  s.setReg Config.isIndex (s.is &&& ~~~ BitVec.twoPow 8 line)

/-! ### Memory (20_memory.md section 1) -/

/-- The cell at an address, 0 where none is listed. -/
def Memory.get : Memory → Nat → Byte
  | [], _ => 0
  | c :: rest, a => if c.1 = a then c.2 else Memory.get rest a

/-- A cell put in its place by rising address. -/
def Memory.insert : Memory → Host.Cell → Memory
  | [], c => [c]
  | d :: rest, c => if c.1 < d.1 then c :: d :: rest else d :: Memory.insert rest c

/-- The memory with one cell written; a cell written with the value an unlisted address reads as is not listed. -/
def Memory.put (m : Memory) (a : Nat) (v : Byte) : Memory :=
  let others := m.filter (fun c => c.1 ≠ a)
  if v = 0 then others else Memory.insert others (a, v)

/-- The memory with the bytes of a list written from an address upward. -/
def Memory.putAll : Memory → Nat → List Byte → Memory
  | m, _, [] => m
  | m, a, v :: rest => Memory.putAll (Memory.put m a v) (a + 1) rest

/-- The canonical form: addresses strictly rising and below 256, no listed 0. -/
def Memory.wf (m : Memory) : Bool :=
  decide (m.Pairwise (fun c d => c.1 < d.1)) && m.all (fun c => decide (c.1 < Config.memSize ∧ c.2 ≠ 0))

/-- `MemRead(addr, 1)`: bounds-checked against 0..255, no wrap (20_memory.md R31). -/
def State.memRead (s : State) (addr : Nat) : Except Cause Byte :=
  if addr > 255 then .error .memRange else .ok (Memory.get s.mem addr)

/-- `MemWrite(addr, 1, v)`: bounds-checked against 0..255, no wrap (20_memory.md R31). -/
def State.memWrite (s : State) (addr : Nat) (v : Byte) : Except Cause State :=
  if addr > 255 then .error .memRange else .ok { s with mem := Memory.put s.mem addr v }

/-- `MemRead` at an address held in a byte, which is always in range (20_memory.md R32). -/
def State.load (s : State) (addr : Byte) : Byte := Memory.get s.mem addr.toNat

/-- `MemWrite` at an address held in a byte, which is always in range (20_memory.md R32). -/
def State.store (s : State) (addr v : Byte) : State := { s with mem := Memory.put s.mem addr.toNat v }

/-! ### Stack (20_memory.md section 4) -/

/-- `push(v)`: decrement SP modulo 256, write at the new SP (20_memory.md R37, R38). -/
def State.push (s : State) (v : Byte) : State :=
  let t := s.setReg Config.spIndex (s.sp - 1)
  t.store t.sp v

/-- `pop()`: read at SP, increment SP modulo 256, return the value (20_memory.md R37, R38). -/
def State.pop (s : State) : Byte × State := (s.load s.sp, s.setReg Config.spIndex (s.sp + 1))

/-! ### Program counter and the end of an instruction -/

/-- `advance(n)`: no wrap past 255 (10_state.md R15 (e)). -/
def State.advance (s : State) (n : Nat) : Except Cause State :=
  if s.pc.toNat + n > 255 then .error .pcRange else .ok { s with pc := s.pc + BitVec.ofNat 8 n }

/-- TAKING A FATAL ERROR, `raise Fatal(c)`: the run ends with the cause; no register, flag, cell, output or PC changes
and control goes nowhere (60_exceptions.md R142; log 1). -/
def State.raise (s : State) (c : Cause) : State := { s with running := false, fatal := some c }

/-- The state after an action that may raise: `s` is the state before it, unchanged but for the fatal status when the
action raises (60_exceptions.md R143). -/
def State.settle (s : State) (r : Except Cause State) : State :=
  match r with
  | .ok t => t
  | .error c => s.raise c

/-- The end of a flow-control instruction: it has written the PC itself and step 7 does nothing (43_cycle.md R132). -/
def endFlow (s : State) (r : Except Cause State) : Host.Outcome State Fault Refusal := .next (s.settle r)

/-- The end of an ALU or non-flow instruction of n bytes: if it raised nothing, step 7 does `advance(n)`; running off
address 255 there leaves its effects and the PC (43_cycle.md R132, R135). -/
def endSequential (n : Nat) (s : State) (r : Except Cause State) : Host.Outcome State Fault Refusal :=
  .next (match r with
    | .ok t => t.settle (t.advance n)
    | .error c => s.raise c)

/-! ### Interrupts (60_exceptions.md section 2) -/

/-- The nine bytes an interrupt saves, in push order: PC, FL, R0..R6 (60_exceptions.md R149). -/
def State.context (s : State) : List Byte :=
  [s.pc, s.fl, s.reg 0, s.reg 1, s.reg 2, s.reg 3, s.reg 4, s.reg 5, s.reg 6]

/-- The registers a return from an interrupt restores, in pop order: R6 down to R0 (42_flow.md R116). -/
def restoredRegs : List Index := [6, 5, 4, 3, 2, 1, 0]

/-- The address of the vector of a line, `0xF8 + i` (60_exceptions.md R150). -/
def vectorOf (line : Index) : Byte := Config.vecBase + BitVec.ofNat 8 line

/-- TAKING AN INTERRUPT on a line: clear its IS bit, push PC, FL, R0..R6 (R6 with the bit clear), load the PC from the
vector, in that order (60_exceptions.md R149). Nothing is disabled (R151; log 19). -/
def State.interruptEntry (s : State) (line : Index) : State :=
  let t := s.acknowledge line
  let u := t.context.foldl State.push t
  { u with pc := u.load (vectorOf line) }

/-- Pop one byte into a register. -/
def State.popReg (s : State) (i : Index) : State := s.pop.2.setReg i s.pop.1

/-- RETURNING FROM AN INTERRUPT: pop R6..R0, then FL (all 8 bits, unmasked), then the PC (42_flow.md R116). -/
def State.interruptReturn (s : State) : State :=
  let t := restoredRegs.foldl State.popReg s
  let u := t.pop.2
  { u.pop.2 with fl := t.pop.1, pc := u.pop.1 }

end Sys2Proof.Machine
end

