-- ==== Sys2Proof/Machine/Cycle.lean ====
section
/-! DEFINITION. Steps 0 to 5 of the cycle (43_cycle.md R125): events, dispatch check, timer, fetch and decode. -/

namespace Sys2Proof.Machine

/-- The input of the next cycle and the state that no longer holds it: the first of the given inputs, or a free one
(10_state.md R24; log 2). -/
def State.takeInput (s : State) : CycleInput × State :=
  match s.inputs with
  | i :: rest => (i, { s with inputs := rest })
  | [] => (Config.freeInput s.drawn, { s with drawn := s.drawn + 1 })

/-- `Key(v)`: the payload into cell 0xF4 and IS bit 1 set, one indivisible action (43_cycle.md R126, 60_exceptions.md
R154). -/
def State.keyEvent (s : State) (v : Byte) : State := (s.store Config.keyCell v).request Config.eventLine

/-- Step 0: the events in list order; `Cancel` and `Stop` clear the running flag and discard the rest of the batch
(43_cycle.md R126, 60_exceptions.md R155). -/
def State.applyEvents : List Event → State → State
  | [], s => s
  | .key v :: rest, s => State.applyEvents rest (s.keyEvent v)
  | .cancel :: _, s => { s with running := false }
  | .stop :: _, s => { s with running := false }

/-- The lines in the order the check scans them (60_exceptions.md R147, R148). -/
def scanOrder : List Index := [0, 1, 2, 3, 4, 5, 6, 7]

/-- The lowest-numbered line whose bit is set (60_exceptions.md R147, R148). -/
def lowestLine (masked : Byte) : Option Index := scanOrder.find? (fun i => masked.getLsbD i)

/-- Step 1, the dispatch check: enter the lowest line that is pending and enabled, if there is one (60_exceptions.md
R147). -/
def State.dispatchCheck (s : State) : State :=
  match lowestLine (s.im &&& s.is) with
  | some line => s.interruptEntry line
  | none => s

/-- Step 2: a tick sets IS bit 0 whatever IM is (43_cycle.md R128). -/
def State.timerTick (s : State) (tick : Bool) : State := if tick then s.request Config.timerLine else s

/-- Steps 0 to 2 of a cycle with a given input. If the events stop the run, the cycle ends with step 0 (43_cycle.md
R126). -/
def State.beforeFetch (s : State) (input : CycleInput) : State :=
  let t := State.applyEvents input.events s
  if t.running then t.dispatchCheck.timerTick input.tick else t

/-- The bytes from the PC upward that an instruction can have: at most three, and none above address 255 (30_encoding.md
R50, 20_memory.md R32). -/
def State.codeBytes (s : State) : List Byte := [0, 1, 2].filterMap (fun k => (s.memRead (s.pc.toNat + k)).toOption)

/-- Which fatal error a refusal of the decoder is: bytes that end before the operands are an operand fetch beyond
address 255, all others are `Decode` (60_exceptions.md R141, R144). -/
def causeOf : DecodeError → Cause
  | .operandMissing => .memRange
  | .operandCount3 => .decode
  | .bothFlags => .decode
  | .unassigned => .decode
  | .countMismatch => .decode
  | .noOpcode => .decode

/-- Steps 3 to 5 and the lookup of step 6: the instruction at the PC, or the fatal error (43_cycle.md R129 to R131). -/
def State.fetch (s : State) : Except Cause Instr :=
  match decode s.codeBytes with
  | .ok (i, _) => .ok i
  | .error e => .error (causeOf e)

end Sys2Proof.Machine
end

