-- ==== Sys2Proof/Machine/Flags.lean ====
section
/-! DEFINITION. The flags register: bit 0 Equal, bit 1 Greater, bit 2 Less (10_state.md R16), what CMP writes (40_alu.md
R78) and what the conditional jumps test (42_flow.md R114; log 17). -/

namespace Sys2Proof.Machine

/-- E = FL[0] (10_state.md R16). -/
def flagE (fl : Byte) : Bool := fl.getLsbD 0

/-- G = FL[1] (10_state.md R16). -/
def flagG (fl : Byte) : Bool := fl.getLsbD 1

/-- L = FL[2] (10_state.md R16). -/
def flagL (fl : Byte) : Bool := fl.getLsbD 2

/-- What CMP writes to all 8 bits of FL, comparing unsigned values (40_alu.md R78, 90_conflicts.md C1; log 21). -/
def compareFlags (va vb : Byte) : Byte :=
  if va.toNat < vb.toNat then 0b00000100
  else if va.toNat > vb.toNat then 0b00000010
  else 0b00000001

/-- JEQ: E = 1 (42_flow.md R108). -/
def condEq (fl : Byte) : Bool := flagE fl

/-- JNE: E = 0 (42_flow.md R109). -/
def condNe (fl : Byte) : Bool := !flagE fl

/-- JGT: G = 1 (42_flow.md R110). -/
def condGt (fl : Byte) : Bool := flagG fl

/-- JGE: G = 1 or E = 1 (42_flow.md R111). -/
def condGe (fl : Byte) : Bool := flagG fl || flagE fl

/-- JLT: L = 1 (42_flow.md R112). -/
def condLt (fl : Byte) : Bool := flagL fl

/-- JLE: L = 1 or E = 1 (42_flow.md R113). -/
def condLe (fl : Byte) : Bool := flagL fl || flagE fl

end Sys2Proof.Machine
end

