-- ==== Sys2Proof/Machine/Operands.lean ====
section
/-! DEFINITION. The operand forms (30_encoding.md section 2): a register operand byte is the whole index, checked
against 0..7 at every access (10_state.md R13); the immediate is used as it stands. -/

namespace Sys2Proof.Machine

/-- The register an operand byte names; above 7 it names none (10_state.md R13: the whole byte is the index). -/
def regIndex (r : Byte) : Except Cause Index :=
  if h : r.toNat < 8 then .ok ⟨r.toNat, h⟩ else .error .regRange

/-- `x[r]` for an operand byte r (10_state.md R13). -/
def State.readReg (s : State) (r : Byte) : Except Cause Byte := do
  let i ← regIndex r
  return s.reg i

/-- `x[r] <- v` for an operand byte r (10_state.md R12, R13). -/
def State.writeReg (s : State) (r v : Byte) : Except Cause State := do
  let i ← regIndex r
  return s.setReg i v

end Sys2Proof.Machine
end

