-- ==== Sys2Proof/Machine/Alu.lean ====
section
/-! DEFINITION. The ALU instructions (40_alu.md): the template of R70, then one meaning per instruction. -/

namespace Sys2Proof.Machine

/-- The two-operand template: read x[a], read x[b], compute, write x[a], then the PC moves by 3; every check precedes
the write (40_alu.md R70). -/
def aluBinary (f : Byte → Byte → Except Cause Byte) (a b : Byte) (s : State) : Host.Outcome State Fault Refusal :=
  endSequential 3 s do
    let va ← s.readReg a
    let vb ← s.readReg b
    let v ← f va vb
    s.writeReg a v

/-- The one-operand template: read x[a], compute, write x[a], then the PC moves by 2 (40_alu.md R70). -/
def aluUnary (f : Byte → Byte) (a : Byte) (s : State) : Host.Outcome State Fault Refusal :=
  endSequential 2 s do
    let v ← s.readReg a
    s.writeReg a (f v)

/-- A division with its check of the divisor (40_alu.md R74, R75, R85; log 24). -/
def byNonZero (f : Byte → Byte → Byte) (va vb : Byte) : Except Cause Byte :=
  if vb = 0 then .error .divZero else .ok (f va vb)

/-- ADD a,b: x[a] <- (va + vb) mod 256 (40_alu.md R71). -/
def execAdd (a b : Byte) (s : State) : Host.Outcome State Fault Refusal := aluBinary (fun va vb => .ok (va + vb)) a b s

/-- SUB a,b: x[a] <- (va - vb) mod 256 (40_alu.md R72). -/
def execSub (a b : Byte) (s : State) : Host.Outcome State Fault Refusal := aluBinary (fun va vb => .ok (va - vb)) a b s

/-- MUL a,b: x[a] <- (va * vb) mod 256 (40_alu.md R73). -/
def execMul (a b : Byte) (s : State) : Host.Outcome State Fault Refusal := aluBinary (fun va vb => .ok (va * vb)) a b s

/-- DIV a,b: x[a] <- va div vb, a zero divisor raises `Fatal(DivZero)` (40_alu.md R74). -/
def execDiv (a b : Byte) (s : State) : Host.Outcome State Fault Refusal := aluBinary (byNonZero (fun va vb => va / vb)) a b s

/-- MOD a,b: x[a] <- va mod vb, a zero divisor raises `Fatal(DivZero)` (40_alu.md R75). -/
def execMod (a b : Byte) (s : State) : Host.Outcome State Fault Refusal := aluBinary (byNonZero (fun va vb => va % vb)) a b s

/-- INC a: x[a] <- (x[a] + 1) mod 256 (40_alu.md R76). -/
def execInc (a : Byte) (s : State) : Host.Outcome State Fault Refusal := aluUnary (fun v => v + 1) a s

/-- DEC a: x[a] <- (x[a] - 1) mod 256 (40_alu.md R77). -/
def execDec (a : Byte) (s : State) : Host.Outcome State Fault Refusal := aluUnary (fun v => v - 1) a s

/-- CMP a,b: FL <- Less, Greater or Equal of the unsigned values; no register is written (40_alu.md R78). -/
def execCmp (a b : Byte) (s : State) : Host.Outcome State Fault Refusal :=
  endSequential 3 s do
    let va ← s.readReg a
    let vb ← s.readReg b
    return { s with fl := compareFlags va vb }

/-- AND a,b: x[a] <- va & vb (40_alu.md R79). -/
def execAnd (a b : Byte) (s : State) : Host.Outcome State Fault Refusal := aluBinary (fun va vb => .ok (va &&& vb)) a b s

/-- NOT a: x[a] <- x[a] ^ 0xFF (40_alu.md R80). -/
def execNot (a : Byte) (s : State) : Host.Outcome State Fault Refusal := aluUnary (fun v => v ^^^ 0xFF) a s

/-- OR a,b: x[a] <- va | vb (40_alu.md R81). -/
def execOr (a b : Byte) (s : State) : Host.Outcome State Fault Refusal := aluBinary (fun va vb => .ok (va ||| vb)) a b s

/-- XOR a,b: x[a] <- va ^ vb (40_alu.md R82). -/
def execXor (a b : Byte) (s : State) : Host.Outcome State Fault Refusal := aluBinary (fun va vb => .ok (va ^^^ vb)) a b s

/-- SHL a,b: x[a] <- (va * 2^vb) mod 256, the whole amount 0..255 counts (log 20) (40_alu.md R83). -/
def execShl (a b : Byte) (s : State) : Host.Outcome State Fault Refusal := aluBinary (fun va vb => .ok (va <<< vb.toNat)) a b s

/-- SHR a,b: x[a] <- va div 2^vb, the whole amount 0..255 counts (log 20) (40_alu.md R84). -/
def execShr (a b : Byte) (s : State) : Host.Outcome State Fault Refusal := aluBinary (fun va vb => .ok (va >>> vb.toNat)) a b s

end Sys2Proof.Machine
end

