-- ==== Sys2Proof/Machine/Flow.lean ====
section
/-! DEFINITION. The flow-control instructions (42_flow.md): each writes the PC itself on every path. -/

namespace Sys2Proof.Machine

/-- CALL a: read the target, check the return address pc + 2, push it, jump (42_flow.md R105). -/
def execCall (a : Byte) (s : State) : Host.Outcome State Fault Refusal :=
  endFlow s do
    let target ← s.readReg a
    let next ← s.advance 2
    return { s.push next.pc with pc := target }

/-- RET: pc <- pop() (42_flow.md R106). -/
def execRet (s : State) : Host.Outcome State Fault Refusal :=
  endFlow s (.ok { s.pop.2 with pc := s.pop.1 })

/-- JMP a: pc <- x[a] (42_flow.md R107). -/
def execJmp (a : Byte) (s : State) : Host.Outcome State Fault Refusal :=
  endFlow s do
    let target ← s.readReg a
    return { s with pc := target }

/-- The common part of the conditional jumps: the register is read on both paths, the jump not taken does `advance(2)`
(42_flow.md R114). -/
def jumpIf (cond : Byte → Bool) (a : Byte) (s : State) : Host.Outcome State Fault Refusal :=
  endFlow s do
    let target ← s.readReg a
    if cond s.fl then return { s with pc := target } else s.advance 2

/-- JEQ a (42_flow.md R108). -/
def execJeq (a : Byte) (s : State) : Host.Outcome State Fault Refusal := jumpIf condEq a s

/-- JNE a (42_flow.md R109). -/
def execJne (a : Byte) (s : State) : Host.Outcome State Fault Refusal := jumpIf condNe a s

/-- JGT a (42_flow.md R110). -/
def execJgt (a : Byte) (s : State) : Host.Outcome State Fault Refusal := jumpIf condGt a s

/-- JGE a (42_flow.md R111). -/
def execJge (a : Byte) (s : State) : Host.Outcome State Fault Refusal := jumpIf condGe a s

/-- JLT a (42_flow.md R112). -/
def execJlt (a : Byte) (s : State) : Host.Outcome State Fault Refusal := jumpIf condLt a s

/-- JLE a (42_flow.md R113). -/
def execJle (a : Byte) (s : State) : Host.Outcome State Fault Refusal := jumpIf condLe a s

/-- The interrupt line a register value requests: n - 1 for n = 1..8, none otherwise (42_flow.md R115; log 24). -/
def requestedLine (n : Byte) : Except Cause Index :=
  if h : 1 ≤ n.toNat ∧ n.toNat ≤ 8 then .ok ⟨n.toNat - 1, by omega⟩ else .error .intLine

/-- INT a: check the line, check pc + 2, set the IS bit, step over itself (42_flow.md R115; log 18). -/
def execInt (a : Byte) (s : State) : Host.Outcome State Fault Refusal :=
  endFlow s do
    let n ← s.readReg a
    let line ← requestedLine n
    let t ← s.advance 2
    return t.request line

/-- IRET (42_flow.md R116). -/
def execIret (s : State) : Host.Outcome State Fault Refusal := endFlow s (.ok s.interruptReturn)

end Sys2Proof.Machine
end

