-- ==== Sys2Proof/Machine/NonFlow.lean ====
section
/-! DEFINITION. The non-flow instructions (41_nonflow.md): no-ops, halt, load, store, stack, print. Each ends with
step 7's `advance(AA + 1)`. -/

namespace Sys2Proof.Machine

/-- NOP: nothing (41_nonflow.md R90). -/
def execNop (s : State) : Host.Outcome State Fault Refusal := endSequential 1 s (.ok s)

/-- NOP1: nothing, its operand byte is ignored (41_nonflow.md R90; log 14). -/
def execNop1 (_x : Byte) (s : State) : Host.Outcome State Fault Refusal := endSequential 2 s (.ok s)

/-- NOP2: nothing, its operand bytes are ignored (41_nonflow.md R90; log 14). -/
def execNop2 (_x _y : Byte) (s : State) : Host.Outcome State Fault Refusal := endSequential 3 s (.ok s)

/-- HLT: running <- false; the PC still advances by 1 (41_nonflow.md R91). -/
def execHlt (s : State) : Host.Outcome State Fault Refusal := endSequential 1 s (.ok { s with running := false })

/-- LDI a,imm: x[a] <- imm (41_nonflow.md R92). -/
def execLdi (a imm : Byte) (s : State) : Host.Outcome State Fault Refusal := endSequential 3 s (s.writeReg a imm)

/-- LD a,b: x[a] <- M[x[b]] (41_nonflow.md R93). -/
def execLd (a b : Byte) (s : State) : Host.Outcome State Fault Refusal :=
  endSequential 3 s do
    let addr ← s.readReg b
    let v ← s.memRead addr.toNat
    s.writeReg a v

/-- ST a,b: M[x[a]] <- x[b] (41_nonflow.md R94). -/
def execSt (a b : Byte) (s : State) : Host.Outcome State Fault Refusal :=
  endSequential 3 s do
    let addr ← s.readReg a
    let v ← s.readReg b
    s.memWrite addr.toNat v

/-- PUSH a: the value is read before SP is decremented (41_nonflow.md R95; log 22). -/
def execPush (a : Byte) (s : State) : Host.Outcome State Fault Refusal :=
  endSequential 2 s do
    let v ← s.readReg a
    return s.push v

/-- POP a: SP is incremented, then the register takes the popped byte (41_nonflow.md R96; log 22). -/
def execPop (a : Byte) (s : State) : Host.Outcome State Fault Refusal :=
  endSequential 2 s do
    let i ← regIndex a
    return s.popReg i

/-- PRN a: append the record `PRN x[a]` (41_nonflow.md R97). -/
def execPrn (a : Byte) (s : State) : Host.Outcome State Fault Refusal :=
  endSequential 2 s do
    let v ← s.readReg a
    return { s with out := s.out ++ [.prn v] }

/-- PRA a: append the record `PRA x[a]` (41_nonflow.md R98). -/
def execPra (a : Byte) (s : State) : Host.Outcome State Fault Refusal :=
  endSequential 2 s do
    let v ← s.readReg a
    return { s with out := s.out ++ [.pra v] }

end Sys2Proof.Machine
end

