-- ==== Sys2Proof/Machine/HostPort.lean ====
section
/-! DEFINITION. The host's commands (10_state.md R25 (e), 70_reset_and_hazards.md section 1), accepted only while the
machine is not running. -/

namespace Sys2Proof.Machine

/-- `reset`: every piece of state to its reset value, whatever it was; pending events are discarded (70_reset_and_hazards.md
R170, 10_state.md R26, R27). The host's later commands stay, and the model's draw counter goes on, so that no free input
is drawn twice (log 2). -/
def State.hostReset (s : State) : State := { State.reset with host := s.host, drawn := s.drawn }

/-- `load(image)` after a reset: byte k of the image at address k; an image of more than 256 bytes is refused and leaves
the reset state (70_reset_and_hazards.md R171). -/
def State.hostLoad (s : State) (image : List Byte) : State :=
  if image.length ≤ Config.memSize then { s with mem := Memory.putAll s.mem 0 image, life := .loaded } else s

/-- `start`: the run begins (70_reset_and_hazards.md R172). -/
def State.hostStart (s : State) : State := { s with running := true, life := .started }

/-- A machine that is not running: it takes the host's next command, or stays as it is (43_cycle.md R133: "no agent
changes the state of the core until the host resets it"). A command out of order is no move of the model (log 3). -/
def State.hostStep (s : State) : Host.Outcome State Fault Refusal :=
  match s.host with
  | [] => .next s
  | .reset :: rest => .next { s with host := rest }.hostReset
  | .load image :: rest =>
    if s.life = .reset then .next ({ s with host := rest }.hostLoad image) else .refused (.hostOutOfOrder (.load image))
  | .start :: rest =>
    if s.life = .loaded then .next { s with host := rest }.hostStart else .refused (.hostOutOfOrder .start)

end Sys2Proof.Machine
end

