-- ==== Sys2Proof/Machine/Step.lean ====
section
/-! DEFINITION. One step: one cycle of a running machine (43_cycle.md R125), one host command of one that is not
running; and the placing of an instruction word for the next fetch. -/

namespace Sys2Proof.Machine

/-- Steps 3 to 7 of a cycle (43_cycle.md R125): fetch and decode, then the instruction, or the fatal error. -/
def fetchAndExec (s : State) : Host.Outcome State Fault Refusal :=
  match s.fetch with
  | .ok i => exec i s
  | .error c => .next (s.raise c)

/-- One cycle with a given input (43_cycle.md R125): if step 0 stops the run, the cycle ends there. -/
def cycle (input : CycleInput) (s : State) : Host.Outcome State Fault Refusal :=
  let t := s.beforeFetch input
  if t.running then fetchAndExec t else .next t

/-- One step of the machine: a cycle while running (43_cycle.md R133), the host's port otherwise. -/
def step (s : State) : Host.Outcome State Fault Refusal :=
  if s.running then cycle s.takeInput.1 s.takeInput.2 else s.hostStep

/-- The PC an instruction of up to three bytes can be placed at and stepped over: the PC where it fits, else 0. -/
def State.placePc (s : State) : Byte := if s.pc.toNat + 3 ≤ 255 then s.pc else 0

/-- `s` with an instruction word stored where the next step fetches, and all that the next step needs to fetch it: the
machine is started, the next cycle's input is quiet, and no line is both pending and enabled (log 5). It stands for the
host's load and start (70_reset_and_hazards.md R171, R172). -/
def State.withFetchWord (s : State) (nbits w : Nat) : State :=
  let t := s.setReg Config.isIndex (s.is &&& ~~~ s.im)
  { t with
    pc := s.placePc
    mem := Memory.putAll s.mem s.placePc.toNat (wordBytes nbits w)
    running := true
    life := .started
    inputs := CycleInput.quiet :: s.inputs }

end Sys2Proof.Machine
end

