-- ==== Sys2Proof/Safety.lean ====
section
/-! DEFINITION. What counts as a safe run and as a legal state, in the terms the claims use (43_cycle.md R133,
60_exceptions.md R142, 92_eei_decisions.md D29). -/

namespace Sys2Proof.Machine

/-- The run has ended: it was started and the running flag is clear (43_cycle.md R133). -/
abbrev State.Ended (s : State) : Prop := s.life = .started ∧ s.running = false

/-- The run has ended without a fatal error: a halt, a cancel or a stop (43_cycle.md R133 (a), (b)). -/
abbrev State.EndedNormally (s : State) : Prop := s.Ended ∧ s.fatal = none

/-- The run has ended with a fatal error, and is never a successful run (43_cycle.md R133 (c), 60_exceptions.md R142). -/
abbrev State.EndedFatally (s : State) (c : Cause) : Prop := s.Ended ∧ s.fatal = some c

/-- The legal states: memory is canonical; a running machine has been started and has no fatal status
(60_exceptions.md R142: a fatal error ends the run); before the start there is no fatal status (10_state.md R26). -/
abbrev State.Inv (s : State) : Prop :=
  Memory.wf s.mem = true ∧ (s.running = true → s.life = .started ∧ s.fatal = none) ∧
    (s.life ≠ .started → s.fatal = none)

end Sys2Proof.Machine
end

