-- ==== Sys2Proof/WellFormed.lean ====
section
/-! DEFINITION. The well-formed instructions: every register operand names one of R0..R7 (30_encoding.md R54, "legal
0..7"). An instruction that is not well-formed still decodes and still has its meaning: it raises `Fatal(RegRange)`. -/

namespace Sys2Proof

/-- A register operand byte that names a register (10_state.md R13: the check is `i > 7`). -/
def Byte.isRegister (r : Byte) : Bool := r.toNat ≤ 7

/-- Every register operand of the instruction is in 0..7. -/
def Instr.wellFormed (i : Instr) : Bool := i.registerOperands.all Byte.isRegister

end Sys2Proof
end

