-- ==== Sys2Proof/Certificates/Slice0/Obligations.lean ====
section
/-! DEFINITION. The statements for the provers, each made from the rules of spec/. "Fatal end" in a docstring means the
state of 60_exceptions.md R142: running clear, the cause recorded, nothing else changed. -/

open Sys2Proof Sys2Proof.Machine

namespace Sys2Proof.Claims

/-- The operand byte that names register i (30_encoding.md R54). -/
def regByte (i : Index) : Byte := BitVec.ofNat 8 i

/-- `x[i]` as an integer 0..255 (00_scope.md R6). -/
def x (s : State) (i : Index) : Nat := (s.reg i).toNat

/-- `x[i] <- v`: the register takes `v mod 256` (10_state.md R12) and nothing else changes. -/
def withReg (s : State) (i : Index) (v : Nat) : State := { s with regs := s.regs.set i (BitVec.ofNat 8 (v % 256)) }

/-- `raise Fatal(c)` in `s` (60_exceptions.md R142). -/
def fatalEnd (s : State) (c : Cause) : State := { s with running := false, fatal := some c }

/-- Instruction i of n bytes, run in `s`, has the effect `t` (in which the PC is still the instruction's own address)
and then the PC moves to the byte after its last operand; where that is beyond address 255 the effect stays, the PC
stays and the run ends with `PcRange` (43_cycle.md R132, R135; the second half is the spec's decision D9, log 23). -/
def Sequential (i : Instr) (n : Nat) (s t : State) : Prop :=
  (s.pc.toNat + n ≤ 255 → exec i s = .next { t with pc := BitVec.ofNat 8 (s.pc.toNat + n) }) ∧
  (s.pc.toNat + n > 255 → exec i s = .next (fatalEnd t .pcRange))

/-- A conditional jump with its condition: taken, not taken, and not taken at the end of memory (42_flow.md R114). -/
def JumpsWhen (i : Instr) (a : Index) (s : State) (cond : Prop) : Prop :=
  (cond → exec i s = .next { s with pc := s.reg a }) ∧
  (¬ cond → s.pc.toNat + 2 ≤ 255 → exec i s = .next { s with pc := BitVec.ofNat 8 (s.pc.toNat + 2) }) ∧
  (¬ cond → s.pc.toNat + 2 > 255 → exec i s = .next (fatalEnd s .pcRange))

/-- `t` is `s` but that the cell at `a` holds `v`. -/
def StoredOnly (s t : State) (a v : Byte) : Prop :=
  { t with mem := s.mem } = s ∧
  ∀ b : Nat, Memory.get t.mem b = if b = a.toNat then v else Memory.get s.mem b

/-- The 36 opcode bytes (30_encoding.md R56). -/
def opcodeBytes : List Byte :=
  [0x00, 0x01, 0x21, 0x23, 0x40, 0x45, 0x46, 0x47, 0x48, 0x55, 0x56, 0x59, 0x60, 0x62, 0x64, 0x65, 0x66, 0x67, 0x68,
   0x69, 0x6A, 0x80, 0x82, 0x83, 0x84, 0x90, 0x91, 0x92, 0x93, 0x94, 0x97, 0x98, 0x9A, 0x9B, 0x9C, 0x9D]

/-- Line i is pending and enabled (60_exceptions.md R146). -/
abbrev Serviceable (s : State) (i : Index) : Prop := s.im.getLsbD i = true ∧ s.is.getLsbD i = true

/-- Line i is the one the dispatch check enters: the lowest that is pending and enabled (60_exceptions.md R148). -/
abbrev Chosen (s : State) (i : Index) : Prop := Serviceable s i ∧ ∀ j : Index, j < i → ¬ Serviceable s j

/-- `t` is `s` after key events with these payloads: cell 0xF4 holds the last one, IS bit 1 is set if there was one,
and nothing else changed (43_cycle.md R126). -/
def AfterKeys (s t : State) (keys : List Byte) : Prop :=
  { t with mem := s.mem, regs := s.regs } = s ∧
  (∀ b : Nat, Memory.get t.mem b = if b = 0xF4 then keys.getLastD (Memory.get s.mem b) else Memory.get s.mem b) ∧
  t.is = (if keys = [] then s.is else s.is ||| 0b00000010) ∧
  ∀ j : Index, j ≠ 6 → t.reg j = s.reg j

/-- `t` is `s` with IS bit 0 set, the effect of a tick (43_cycle.md R128). -/
def withTick (s : State) : State := { s with regs := s.regs.set 6 (s.is ||| 0b00000001) }

/-- A use of the stack (20_memory.md R37). -/
inductive StackOp where
  | push (v : Byte)
  | pop

/-- A push, not a pop. -/
def StackOp.isPush : StackOp → Bool
  | .push _ => true
  | .pop => false

/-- One use of the stack; a popped byte is dropped. -/
def StackOp.apply (s : State) : StackOp → State
  | .push v => s.push v
  | .pop => s.pop.2

/-- The address an instruction stores to in `s`, if it is one that stores: ST at x[a], PUSH and CALL at the decremented
SP. -/
def storedAt (i : Instr) (s : State) : Option Byte :=
  match i with
  | .st a _ => (s.readReg a).toOption
  | .push _ => some (s.sp - 1)
  | .call _ => some (s.sp - 1)
  | .nop | .hlt | .ret | .iret => none
  | .nop1 _ | .pop _ | .prn _ | .pra _ | .inc _ | .dec _ | .not _ | .int _ | .jmp _ | .jeq _ | .jne _ | .jgt _ | .jlt _
  | .jle _ | .jge _ => none
  | .nop2 _ _ | .ldi _ _ | .ld _ _ | .add _ _ | .sub _ _ | .mul _ _ | .div _ _ | .mod _ _ | .cmp _ _ | .and _ _ | .or _ _
  | .xor _ _ | .shl _ _ | .shr _ _ => none

/-- The numbers of the registers an instruction writes: its destination operand, SP for the stack instructions, IS for
INT, R0..R6 and SP for IRET (10_state.md, the access table of section 1). -/
def writtenRegs : Instr → List Nat
  | .add a _ | .sub a _ | .mul a _ | .div a _ | .mod a _ | .and a _ | .or a _ | .xor a _ | .shl a _ | .shr a _ => [a.toNat]
  | .inc a | .dec a | .not a => [a.toNat]
  | .ldi a _ | .ld a _ => [a.toNat]
  | .pop a => [a.toNat, 7]
  | .push _ | .call _ | .ret => [7]
  | .int _ => [6]
  | .iret => [0, 1, 2, 3, 4, 5, 6, 7]
  | .nop | .hlt => []
  | .nop1 _ | .prn _ | .pra _ | .jmp _ | .jeq _ | .jne _ | .jgt _ | .jlt _ | .jle _ | .jge _ => []
  | .nop2 _ _ | .st _ _ | .cmp _ _ => []

/-- The instructions that write FL: CMP and IRET (10_state.md R17). -/
def writesFlags : Instr → Bool
  | .cmp _ _ => true
  | .iret => true
  | .nop | .hlt | .ret => false
  | .nop1 _ | .push _ | .pop _ | .prn _ | .pra _ | .inc _ | .dec _ | .not _ | .call _ | .int _ | .jmp _ | .jeq _ | .jne _
  | .jgt _ | .jlt _ | .jle _ | .jge _ => false
  | .nop2 _ _ | .ldi _ _ | .ld _ _ | .st _ _ | .add _ _ | .sub _ _ | .mul _ _ | .div _ _ | .mod _ _ | .and _ _ | .or _ _
  | .xor _ _ | .shl _ _ | .shr _ _ => false

/-- The instructions that read FL: the six conditional jumps (10_state.md R17). -/
def readsFlags : Instr → Bool
  | .jeq _ | .jne _ | .jgt _ | .jge _ | .jlt _ | .jle _ => true
  | .nop | .hlt | .ret | .iret => false
  | .nop1 _ | .push _ | .pop _ | .prn _ | .pra _ | .inc _ | .dec _ | .not _ | .call _ | .int _ | .jmp _ => false
  | .nop2 _ _ | .ldi _ _ | .ld _ _ | .st _ _ | .add _ _ | .sub _ _ | .mul _ _ | .div _ _ | .mod _ _ | .cmp _ _ | .and _ _
  | .or _ _ | .xor _ _ | .shl _ _ | .shr _ _ => false

/-- The instructions that write the console port: PRN and PRA (10_state.md R25). -/
def prints : Instr → Bool
  | .prn _ | .pra _ => true
  | .nop | .hlt | .ret | .iret => false
  | .nop1 _ | .push _ | .pop _ | .inc _ | .dec _ | .not _ | .call _ | .int _ | .jmp _ | .jeq _ | .jne _ | .jgt _ | .jlt _
  | .jle _ | .jge _ => false
  | .nop2 _ _ | .ldi _ _ | .ld _ _ | .st _ _ | .add _ _ | .sub _ _ | .mul _ _ | .div _ _ | .mod _ _ | .cmp _ _ | .and _ _
  | .or _ _ | .xor _ _ | .shl _ _ | .shr _ _ => false

/-- The operands are ones on which the instruction has its normal effect: register indices 0..7, a divisor other than
0, an INT number 1..8. -/
def Admissible (i : Instr) (s : State) : Prop :=
  i.wellFormed = true ∧ (∀ a b, i = .div a b ∨ i = .mod a b → s.readReg b ≠ .ok 0) ∧
    ∀ a n, i = .int a → s.readReg a = .ok n → 1 ≤ n.toNat ∧ n.toNat ≤ 8

end Sys2Proof.Claims

open Sys2Proof.Claims

/-! ### Encoding -/

/-- The encoding of every instruction, byte for byte (30_encoding.md R56, opcode_table.json). The opcode bytes are the
spec's decisions D1 and D2 (log 13); 0x40 and 0x80 are D7 (log 14). -/
def Obligations.EncodingsMatchOpcodeMap : Prop :=
  ∀ a b : Byte,
    encode .nop = [0x00] ∧ encode .hlt = [0x01] ∧ encode .ret = [0x21] ∧ encode .iret = [0x23] ∧
    encode (.nop1 a) = [0x40, a] ∧ encode (.push a) = [0x45, a] ∧ encode (.pop a) = [0x46, a] ∧
    encode (.prn a) = [0x47, a] ∧ encode (.pra a) = [0x48, a] ∧ encode (.inc a) = [0x55, a] ∧
    encode (.dec a) = [0x56, a] ∧ encode (.not a) = [0x59, a] ∧ encode (.call a) = [0x60, a] ∧
    encode (.int a) = [0x62, a] ∧ encode (.jmp a) = [0x64, a] ∧ encode (.jeq a) = [0x65, a] ∧
    encode (.jne a) = [0x66, a] ∧ encode (.jgt a) = [0x67, a] ∧ encode (.jlt a) = [0x68, a] ∧
    encode (.jle a) = [0x69, a] ∧ encode (.jge a) = [0x6A, a] ∧ encode (.nop2 a b) = [0x80, a, b] ∧
    encode (.ldi a b) = [0x82, a, b] ∧ encode (.ld a b) = [0x83, a, b] ∧ encode (.st a b) = [0x84, a, b] ∧
    encode (.add a b) = [0x90, a, b] ∧ encode (.sub a b) = [0x91, a, b] ∧ encode (.mul a b) = [0x92, a, b] ∧
    encode (.div a b) = [0x93, a, b] ∧ encode (.mod a b) = [0x94, a, b] ∧ encode (.cmp a b) = [0x97, a, b] ∧
    encode (.and a b) = [0x98, a, b] ∧ encode (.or a b) = [0x9A, a, b] ∧ encode (.xor a b) = [0x9B, a, b] ∧
    encode (.shl a b) = [0x9C, a, b] ∧ encode (.shr a b) = [0x9D, a, b]

/-- Words written out from the spec's examples decode to the instruction they stand for: `ADD R0,R1` (40_alu.md R71),
`LDI R0,8` (41_nonflow.md R92), `JEQ R2` (42_flow.md R108), IRET (42_flow.md R116). The bytes rest on D1 and D2 (log 13). -/
def Obligations.SpecWordsDecode : Prop :=
  decode [0x90, 0x00, 0x01] = .ok (.add 0 1, []) ∧ decode [0x82, 0x00, 0x08] = .ok (.ldi 0 8, []) ∧
  decode [0x65, 0x02] = .ok (.jeq 2, []) ∧ decode [0x23] = .ok (.iret, []) ∧ decode [0x01] = .ok (.hlt, [])

/-- Decoding the bytes of any instruction, whatever follows them, gives the instruction back and leaves what follows:
every operand byte at every value (30_encoding.md R54, R56). -/
def Obligations.DecodeInvertsEncode : Prop :=
  ∀ (i : Instr) (rest : List Byte), decode (encode i ++ rest) = .ok (i, rest)

/-- A byte sequence that decodes is the encoding of the instruction it decodes to, followed by what is left: no encoding
executes as another instruction (30_encoding.md R61). -/
def Obligations.DecodedBytesAreTheEncoding : Prop :=
  ∀ (bytes : List Byte) (i : Instr) (rest : List Byte), decode bytes = .ok (i, rest) → bytes = encode i ++ rest

/-- The field split of the opcode byte, for every byte value: AA, B, C, DDDD are bits 7:6, 5, 4, 3:0 and the byte is
64*AA + 32*B + 16*C + DDDD (30_encoding.md R51). -/
def Obligations.OpcodeByteFields : Prop :=
  ∀ ir : Byte,
    (split ir).aa.toNat = ir.toNat / 64 ∧ (split ir).b = (ir.toNat / 32 % 2 == 1) ∧
    (split ir).c = (ir.toNat / 16 % 2 == 1) ∧ (split ir).dddd.toNat = ir.toNat % 16 ∧
    ir.toNat = 64 * (split ir).aa.toNat + 32 * (split ir).b.toNat + 16 * (split ir).c.toNat + (split ir).dddd.toNat

/-- Of the 256 opcode byte values exactly the 36 of the opcode map are instructions (30_encoding.md R61: "36 are
instructions; the other 220 raise Fatal(Decode)"). Which 36 they are rests on the spec's decisions D1 and D2 (log 13) and,
for 0x40 and 0x80, D7 (log 14); that the others are fatal on D3 to D6 (log 24). -/
def Obligations.OnlyMappedOpcodesDecode : Prop :=
  opcodeBytes.length = 36 ∧
  ∀ ir a b : Byte, (∃ i rest, decode [ir, a, b] = .ok (i, rest)) ↔ ir ∈ opcodeBytes

/-! ### Memory, stack, registers -/

/-- One-byte accesses with the bounds check: in 0..255 a write is read back, every other cell and every other part of
the state is unchanged and a read gives the cell; above 255 both raise `MemRange` (20_memory.md R31). -/
def Obligations.MemoryAccessIsBoundsChecked : Prop :=
  ∀ (s : State) (addr : Nat) (v : Byte),
    (addr ≤ 255 → s.memRead addr = .ok (Memory.get s.mem addr) ∧
      ∃ t, s.memWrite addr v = .ok t ∧ t.memRead addr = .ok v ∧ { t with mem := s.mem } = s ∧
        ∀ b, b ≤ 255 → b ≠ addr → t.memRead b = s.memRead b) ∧
    (addr > 255 → s.memRead addr = .error .memRange ∧ s.memWrite addr v = .error .memRange)

/-- The stack primitives: push decrements SP and writes at the new SP, pop reads at SP and increments it; a balanced
sequence of pushes and pops, in any order, restores SP; and the five stack instructions are the only ones that move SP without naming
R7 as their destination (20_memory.md R37). -/
def Obligations.StackPrimitives : Prop :=
  (∀ (s : State) (v : Byte),
    (s.push v).sp.toNat = (s.sp.toNat + 255) % 256 ∧ (∀ j : Index, j ≠ 7 → (s.push v).reg j = s.reg j) ∧
    (∀ b : Byte, (s.push v).load b = if b = (s.push v).sp then v else s.load b) ∧
    { s.push v with regs := s.regs, mem := s.mem } = s) ∧
  (∀ s : State,
    s.pop.1 = s.load s.sp ∧ s.pop.2.sp.toNat = (s.sp.toNat + 1) % 256 ∧ (∀ j : Index, j ≠ 7 → s.pop.2.reg j = s.reg j) ∧
    { s.pop.2 with regs := s.regs } = s) ∧
  (∀ (s : State) (ops : List StackOp), ops.countP StackOp.isPush = ops.countP (fun o => !o.isPush) →
    (ops.foldl StackOp.apply s).sp = s.sp) ∧
  (∀ (i : Instr) (s t : State), exec i s = .next t → 7 ∉ writtenRegs i → t.sp = s.sp)

/-- Register accesses with the index check: an index byte of 0..7 reads the register and a write changes it and nothing
else; above 7 both raise `RegRange` (10_state.md section 1, R12, R13). That the whole byte is the index is the spec's own
derivation (`[derived]` in R13). -/
def Obligations.RegisterAccessIsBoundsChecked : Prop :=
  ∀ (s : State) (r v : Byte),
    (∀ h : r.toNat < 8, s.readReg r = .ok (s.reg ⟨r.toNat, h⟩) ∧
      ∃ t, s.writeReg r v = .ok t ∧ t.readReg r = .ok v ∧ { t with regs := s.regs } = s ∧
        ∀ j : Index, (j : Nat) ≠ r.toNat → t.reg j = s.reg j) ∧
    (r.toNat > 7 → s.readReg r = .error .regRange ∧ s.writeReg r v = .error .regRange)

/-- PUSH then POP on the same register, R7 included, leaves SP and the register's value unchanged (the testable property
T3). The R7 case is the spec's decision D27 (log 22), the wrap at 0 is D10 (log 15). -/
def Obligations.PushThenPopRestores : Prop :=
  ∀ (s : State) (a : Index), s.pc.toNat + 4 ≤ 255 →
    ∃ t u, exec (.push (regByte a)) s = .next t ∧ exec (.pop (regByte a)) t = .next u ∧
      u.regs = s.regs ∧ u.fl = s.fl ∧ u.pc.toNat = s.pc.toNat + 4 ∧
      ∀ b : Byte, b ≠ s.sp - 1 → u.load b = s.load b

/-! ### ALU -/

/-- ADD, SUB, MUL: the exact integer result modulo 256 into the first register, nothing else but the PC (40_alu.md
section 2, R71 to R73). -/
def Obligations.AddSubMulResults : Prop :=
  ∀ (s : State) (a b : Index),
    Sequential (.add (regByte a) (regByte b)) 3 s (withReg s a (x s a + x s b)) ∧
    Sequential (.sub (regByte a) (regByte b)) 3 s (withReg s a (((x s a : Int) - x s b) % 256).toNat) ∧
    Sequential (.mul (regByte a) (regByte b)) 3 s (withReg s a (x s a * x s b))

/-- DIV and MOD: quotient and remainder of the unsigned values; a second register that holds 0 ends the run with
`DivZero` and nothing written (40_alu.md section 2, R74, R75). The fatal end is the spec's decision D8 (log 24). -/
def Obligations.DivModResults : Prop :=
  ∀ (s : State) (a b : Index),
    (x s b ≠ 0 →
      Sequential (.div (regByte a) (regByte b)) 3 s (withReg s a (x s a / x s b)) ∧
      Sequential (.mod (regByte a) (regByte b)) 3 s (withReg s a (x s a % x s b))) ∧
    (x s b = 0 →
      exec (.div (regByte a) (regByte b)) s = .next (fatalEnd s .divZero) ∧
      exec (.mod (regByte a) (regByte b)) s = .next (fatalEnd s .divZero))

/-- INC, DEC, NOT: plus one and minus one modulo 256, and 255 minus the value (40_alu.md section 2, R76, R77, R80). -/
def Obligations.IncDecNotResults : Prop :=
  ∀ (s : State) (a : Index),
    Sequential (.inc (regByte a)) 2 s (withReg s a (x s a + 1)) ∧
    Sequential (.dec (regByte a)) 2 s (withReg s a (((x s a : Int) - 1) % 256).toNat) ∧
    Sequential (.not (regByte a)) 2 s (withReg s a (255 - x s a))

/-- AND, OR, XOR: the bitwise results (40_alu.md section 2, R79, R81, R82). -/
def Obligations.AndOrXorResults : Prop :=
  ∀ (s : State) (a b : Index),
    Sequential (.and (regByte a) (regByte b)) 3 s (withReg s a (x s a &&& x s b)) ∧
    Sequential (.or (regByte a) (regByte b)) 3 s (withReg s a (x s a ||| x s b)) ∧
    Sequential (.xor (regByte a) (regByte b)) 3 s (withReg s a (x s a ^^^ x s b))

/-- SHL and SHR: times and divided by two to the whole second register, so 0 from 8 up (40_alu.md section 2, R83, R84).
That the amount is not reduced is the spec's decision D24 (log 20). -/
def Obligations.ShiftResults : Prop :=
  ∀ (s : State) (a b : Index),
    Sequential (.shl (regByte a) (regByte b)) 3 s (withReg s a (x s a * 2 ^ x s b)) ∧
    Sequential (.shr (regByte a) (regByte b)) 3 s (withReg s a (x s a / 2 ^ x s b))

/-- CMP: all 8 bits of FL become 4, 2 or 1 by the unsigned comparison; no register changes (40_alu.md section 2, R78).
That the comparison is unsigned is the spec's decision D26 (log 21). -/
def Obligations.CompareSetsOneFlag : Prop :=
  ∀ (s : State) (a b : Index),
    Sequential (.cmp (regByte a) (regByte b)) 3 s
      { s with fl := if x s a < x s b then 0b00000100 else if x s a > x s b then 0b00000010 else 0b00000001 }

/-- Every instruction with a register operand above 7 ends the run with `RegRange` and changes nothing else, on every
path (10_state.md R13, 42_flow.md R114). The order of this check is the spec's decisions D19 and D20 (log 23). -/
def Obligations.BadRegisterIndexIsFatal : Prop :=
  ∀ (i : Instr) (s : State), i.wellFormed = false → exec i s = .next (fatalEnd s .regRange)

/-! ### Non-flow -/

/-- NOP, NOP1 and NOP2 change only the PC, by 1, 2 and 3, whatever their ignored bytes (41_nonflow.md R90). NOP1 and
NOP2 are the spec's decision D7 (log 14). -/
def Obligations.NopsOnlyMoveThePc : Prop :=
  ∀ (s : State) (p q : Byte), Sequential .nop 1 s s ∧ Sequential (.nop1 p) 2 s s ∧ Sequential (.nop2 p q) 3 s s

/-- HLT clears the running flag, leaves the fatal status, and the PC still moves by 1 (41_nonflow.md R91). -/
def Obligations.HaltStopsTheRun : Prop :=
  ∀ s : State, Sequential .hlt 1 s { s with running := false }

/-- LDI: the register takes the immediate as it stands (41_nonflow.md R92). -/
def Obligations.LoadImmediateResult : Prop :=
  ∀ (s : State) (a : Index) (imm : Byte), Sequential (.ldi (regByte a) imm) 3 s (withReg s a imm.toNat)

/-- LD: the first register takes the byte at the address the second holds (41_nonflow.md R93). -/
def Obligations.LoadResult : Prop :=
  ∀ (s : State) (a b : Index),
    Sequential (.ld (regByte a) (regByte b)) 3 s (withReg s a (Memory.get s.mem (x s b)).toNat)

/-- ST: the cell at the address the first register holds takes the second register's value; no other cell and nothing
else but the PC changes (41_nonflow.md R94). -/
def Obligations.StoreResult : Prop :=
  ∀ (s : State) (a b : Index),
    ∃ t, StoredOnly s t (s.reg a) (s.reg b) ∧ Sequential (.st (regByte a) (regByte b)) 3 s t

/-- PUSH: SP minus 1 modulo 256, and the cell there takes the value the register had before (41_nonflow.md R95). `PUSH
R7` is the spec's decision D27 (log 22), the wrap at SP = 0 is D10 (log 15). -/
def Obligations.PushResult : Prop :=
  ∀ (s : State) (a : Index),
    ∃ t, StoredOnly (withReg s 7 (s.sp - 1).toNat) t (s.sp - 1) (s.reg a) ∧ Sequential (.push (regByte a)) 2 s t

/-- POP: SP plus 1 modulo 256, then the register takes the byte that was at SP, also when it is R7; memory is unchanged
(41_nonflow.md R96). `POP R7` is the spec's decision D27 (log 22), the wrap at SP = 255 is D10 (log 15). -/
def Obligations.PopResult : Prop :=
  ∀ (s : State) (a : Index),
    Sequential (.pop (regByte a)) 2 s (withReg (withReg s 7 (s.sp + 1).toNat) a (s.load s.sp).toNat)

/-- PRN and PRA append one record with the register's byte and change nothing else but the PC (41_nonflow.md R97, R98). -/
def Obligations.PrintResults : Prop :=
  ∀ (s : State) (a : Index),
    Sequential (.prn (regByte a)) 2 s { s with out := s.out ++ [.prn (s.reg a)] } ∧
    Sequential (.pra (regByte a)) 2 s { s with out := s.out ++ [.pra (s.reg a)] }

/-! ### Flow control -/

/-- CALL: pushes pc + 2 and jumps to the value the register had before the push; at address 254 and above it ends the run
with `PcRange` and nothing written (42_flow.md R105). The fatal end is the spec's decision D9 (log 23). -/
def Obligations.CallResult : Prop :=
  ∀ (s : State) (a : Index),
    (s.pc.toNat + 2 ≤ 255 →
      ∃ t, StoredOnly (withReg s 7 (s.sp - 1).toNat) t (s.sp - 1) (BitVec.ofNat 8 (s.pc.toNat + 2)) ∧
        exec (.call (regByte a)) s = .next { t with pc := s.reg a }) ∧
    (s.pc.toNat + 2 > 255 → exec (.call (regByte a)) s = .next (fatalEnd s .pcRange))

/-- RET: the PC takes the byte at SP, SP plus 1 modulo 256, nothing else (42_flow.md R106). -/
def Obligations.ReturnResult : Prop :=
  ∀ s : State, exec .ret s = .next { withReg s 7 (s.sp + 1).toNat with pc := s.load s.sp }

/-- A CALL, then a RET in any later state whose SP and whose byte at SP are those the CALL left (what balanced pushes and
pops in between come back to): the RET resumes at the byte after the CALL with SP as it was before the CALL (the testable
property T4). -/
def Obligations.CallThenReturnResumes : Prop :=
  ∀ (s : State) (a : Index), s.pc.toNat + 2 ≤ 255 →
    ∃ t, exec (.call (regByte a)) s = .next t ∧ t.pc = s.reg a ∧
      ∀ u : State, u.sp = t.sp → u.load u.sp = t.load t.sp →
        ∃ w, exec .ret u = .next w ∧ w.pc.toNat = s.pc.toNat + 2 ∧ w.sp = s.sp

/-- JMP: the PC takes the register's value, nothing else (42_flow.md R107). -/
def Obligations.JumpResult : Prop :=
  ∀ (s : State) (a : Index), exec (.jmp (regByte a)) s = .next { s with pc := s.reg a }

/-- The six conditional jumps with the bits of FL they test, taken and not taken (42_flow.md R108 to R114). Which bits are
tested is the spec's decision D12 (log 17), the fatal end of a jump not taken at address 254 is D9 (log 23). -/
def Obligations.ConditionalJumpResults : Prop :=
  ∀ (s : State) (a : Index),
    JumpsWhen (.jeq (regByte a)) a s (s.fl.toNat % 2 = 1) ∧
    JumpsWhen (.jne (regByte a)) a s (s.fl.toNat % 2 = 0) ∧
    JumpsWhen (.jgt (regByte a)) a s (s.fl.toNat / 2 % 2 = 1) ∧
    JumpsWhen (.jge (regByte a)) a s (s.fl &&& 0b00000011 ≠ 0) ∧
    JumpsWhen (.jlt (regByte a)) a s (s.fl.toNat / 4 % 2 = 1) ∧
    JumpsWhen (.jle (regByte a)) a s (s.fl &&& 0b00000101 ≠ 0)

/-- After `CMP p,q` each conditional jump is taken exactly when its relation holds of the unsigned register values: the
table of 42_flow.md R114, last column. It rests on the spec's decisions D12 and D26 (logs 17, 21). -/
def Obligations.CompareThenJumpFollowsTheRelation : Prop :=
  ∀ (s : State) (p q a : Index), s.pc.toNat + 5 ≤ 255 →
    ∃ t, exec (.cmp (regByte p) (regByte q)) s = .next t ∧ t.regs = s.regs ∧
      JumpsWhen (.jeq (regByte a)) a t (x s p = x s q) ∧ JumpsWhen (.jne (regByte a)) a t (x s p ≠ x s q) ∧
      JumpsWhen (.jgt (regByte a)) a t (x s p > x s q) ∧ JumpsWhen (.jge (regByte a)) a t (x s p ≥ x s q) ∧
      JumpsWhen (.jlt (regByte a)) a t (x s p < x s q) ∧ JumpsWhen (.jle (regByte a)) a t (x s p ≤ x s q)

/-- INT with a register value n in 1..8 sets IS bit n - 1 and steps over itself; n = 0 or n above 8 ends the run with
`IntLine` at any address; a legal n at address 254 or above ends it with `PcRange` (42_flow.md R115). The step over
itself is the spec's decision D13 (log 18), the fatal ends are D14 and D9 (logs 23, 24). -/
def Obligations.InterruptRequestResult : Prop :=
  ∀ (s : State) (a : Index),
    (1 ≤ x s a ∧ x s a ≤ 8 ∧ s.pc.toNat + 2 ≤ 255 →
      exec (.int (regByte a)) s =
        .next { withReg s 6 (x s 6 ||| 2 ^ (x s a - 1)) with pc := BitVec.ofNat 8 (s.pc.toNat + 2) }) ∧
    (x s a = 0 ∨ x s a > 8 → exec (.int (regByte a)) s = .next (fatalEnd s .intLine)) ∧
    (1 ≤ x s a ∧ x s a ≤ 8 ∧ s.pc.toNat + 2 > 255 → exec (.int (regByte a)) s = .next (fatalEnd s .pcRange))

/-- IRET: R6 down to R0, FL and PC from the nine bytes at SP, SP plus 9, nothing else (42_flow.md R116). That all 8 bits
of FL are taken is the spec's decision D11 (log 16). -/
def Obligations.InterruptReturnResult : Prop :=
  ∀ s : State,
    exec .iret s = .next
      { s with
        regs := #v[s.load (s.sp + 6), s.load (s.sp + 5), s.load (s.sp + 4), s.load (s.sp + 3), s.load (s.sp + 2),
          s.load (s.sp + 1), s.load s.sp, s.sp + 9]
        fl := s.load (s.sp + 7)
        pc := s.load (s.sp + 8) }

/-! ### Frames over all instructions -/

/-- Every byte of memory but the one an instruction stores to (ST at x[a], PUSH and CALL at SP - 1) is unchanged by it, and
every byte by an instruction that stores nothing (20_memory.md, the access table of section 1). -/
def Obligations.InstructionsStoreOnlyAtTheirAddress : Prop :=
  ∀ (i : Instr) (s t : State), exec i s = .next t →
    ∀ b : Nat, (∀ a, storedAt i s = some a → b ≠ a.toNat) → Memory.get t.mem b = Memory.get s.mem b

/-- Every register but the destination, SP for the stack instructions, IS for INT and R0..R6 and SP for IRET is unchanged
by an instruction (10_state.md, the access table of section 1). -/
def Obligations.InstructionsWriteOnlyTheirRegisters : Prop :=
  ∀ (i : Instr) (s t : State), exec i s = .next t →
    ∀ j : Index, (j : Nat) ∉ writtenRegs i → t.reg j = s.reg j

/-- No instruction but CMP and IRET changes FL (10_state.md R17). -/
def Obligations.OnlyCompareAndReturnWriteFlags : Prop :=
  ∀ (i : Instr) (s t : State), exec i s = .next t → writesFlags i = false → t.fl = s.fl

/-- Of the instructions only the conditional jumps read FL, and they do not look at its bits 7..3: with another FL every other
instruction does the same and leaves that FL (or writes its own), and a jump does the same for an FL with equal low bits
(10_state.md R17). Interrupt entry, which is no instruction, reads all 8 bits to push them: Obligations.InterruptEntryFrame
(O52). -/
def Obligations.OnlyJumpInstructionsReadFlags : Prop :=
  ∀ (i : Instr) (s t : State) (f : Byte), exec i s = .next t →
    (readsFlags i = false →
      exec i { s with fl := f } = .next { t with fl := if writesFlags i ∧ i.wellFormed then t.fl else f }) ∧
    (readsFlags i = true → f.toNat % 8 = s.fl.toNat % 8 → exec i { s with fl := f } = .next { t with fl := f })

/-- The inputs, the host's commands and the lifecycle are changed by no instruction; the console trace by PRN and PRA only;
the running flag and the fatal status only by HLT and by a fatal error (10_state.md R22, R25). -/
def Obligations.InstructionsLeaveControlState : Prop :=
  ∀ (i : Instr) (s t : State), exec i s = .next t →
    t.inputs = s.inputs ∧ t.drawn = s.drawn ∧ t.host = s.host ∧ t.life = s.life ∧
    (prints i = false → t.out = s.out) ∧
    (i ≠ .hlt → (t.running = s.running ∧ t.fatal = s.fatal) ∨ (t.running = false ∧ ∃ c, t.fatal = some c)) ∧
    (i = .hlt → t.running = false ∧ (t.fatal = s.fatal ∨ t.fatal = some .pcRange))

/-- An ALU or non-flow instruction (B = 0) that ends without a fatal error has moved the PC by exactly its length, whatever
registers it wrote (43_cycle.md R132, 30_encoding.md R64). -/
def Obligations.SequentialInstructionsAdvanceByLength : Prop :=
  ∀ (i : Instr) (s t : State), s.fatal = none → exec i s = .next t → t.fatal = none → i.fields.b = false →
    t.pc.toNat = s.pc.toNat + i.size

/-- A fatal error is precise: the state is the one before the instruction but for the status, or it is the `PcRange` of
step 7 after a completed ALU or non-flow instruction, with the PC kept (60_exceptions.md R143, 43_cycle.md R135). This is
the spec's decisions D9 and D19 (log 23). -/
def Obligations.FatalErrorsArePrecise : Prop :=
  ∀ (i : Instr) (s t : State) (c : Cause), s.fatal = none → exec i s = .next t → t.fatal = some c →
    t.running = false ∧
    (t = fatalEnd s c ∨ (c = .pcRange ∧ i.fields.b = false ∧ t.pc = s.pc ∧ s.pc.toNat + i.size > 255))

/-- Every instruction, in every state where its operands are admissible and it does not stand at the end of memory,
completes without a fatal error, and only HLT stops the run. -/
def Obligations.AdmissibleInstructionsComplete : Prop :=
  ∀ (i : Instr) (s : State), Admissible i s → s.pc.toNat + 3 ≤ 255 →
    ∃ t, exec i s = .next t ∧ t.fatal = s.fatal ∧ (i ≠ .hlt → t.running = s.running)

/-- A step of any state answers a next state, but for a host command out of order; no step faults (30_encoding.md R52,
60_exceptions.md R142). -/
def Obligations.StepsAreNeverStuck : Prop :=
  ∀ s : State, (∃ t, step s = .next t) ∨
    (s.running = false ∧ ∃ c rest, s.host = c :: rest ∧ step s = .refused (.hostOutOfOrder c))

/-! ### Fatal errors -/

/-- A fatal error clears the running flag and records the cause and changes nothing else; the machine then stays as it is
for any number of steps until the host resets it, which is the only way on for a started machine and clears the status; no
other step clears a fatal status (60_exceptions.md R142). -/
def Obligations.FatalErrorsAreFinal : Prop :=
  (∀ (s : State) (c : Cause),
    (s.raise c).running = false ∧ (s.raise c).fatal = some c ∧
    { s.raise c with running := s.running, fatal := s.fatal } = s ∧
    (s.host = [] → ∀ n, Host.Core.run core n (s.raise c) = .next (s.raise c)) ∧
    (s.life = .started → (∀ rest, s.host ≠ .reset :: rest) → ∀ t, step (s.raise c) = .next t → t = s.raise c) ∧
    (∀ rest, s.host = .reset :: rest → ∃ t, step (s.raise c) = .next t ∧ t.fatal = none) ∧
    ¬ (s.raise c).EndedNormally) ∧
  (∀ (s t : State), s.fatal ≠ none → step s = .next t → t.fatal ≠ none ∨ ∃ rest, s.host = .reset :: rest)

/-! ### The cycle -/

/-- A step of a running machine whose cycle gets as far as the fetch is `exec` of the decoded instruction in the state after
steps 0 to 2 (43_cycle.md R125). -/
def Obligations.StepRunsDecodedInstruction : Prop :=
  ∀ (s : State) (i : Instr) (rest : List Byte), s.running = true →
    (s.takeInput.2.beforeFetch s.takeInput.1).running = true →
    decode (s.takeInput.2.beforeFetch s.takeInput.1).codeBytes = .ok (i, rest) →
    step s = exec i (s.takeInput.2.beforeFetch s.takeInput.1)

/-- A running machine whose next input, given or drawn, has no event and no tick, with no line to service, whose memory holds
the bytes of an instruction from the PC upward, executes that instruction (43_cycle.md R125, 20_memory.md R33); taking the
input changes only the list of given inputs and the draw counter (the model's form of the inputs, log 2). -/
def Obligations.QuietStepRunsTheInstructionInMemory : Prop :=
  ∀ (s later : State) (i : Instr), s.running = true → s.takeInput = (⟨[], false⟩, later) →
    (∀ j, ¬ Serviceable s j) →
    (∀ (k : Nat) (h : k < (encode i).length), s.memRead (s.pc.toNat + k) = .ok (encode i)[k]) →
    step s = exec i later ∧ { later with inputs := s.inputs, drawn := s.drawn } = s

/-- What the byte at the PC does, in the order of the checks: AA = 3 or both flags is `Decode` before any operand fetch; then
operands beyond address 255 are `MemRange`; then a byte outside the opcode map is `Decode`; otherwise the instruction whose
bytes stand there is executed (30_encoding.md R57 to R61, 60_exceptions.md R144). The order and the causes are the spec's
decisions D3 to D6 and D20 (logs 23, 24); which bytes the opcode map holds is D1 and D2 (log 13) and, for 0x40 and 0x80,
D7 (log 14). -/
def Obligations.FetchFaultsInOrder : Prop :=
  ∀ s : State,
    if (s.load s.pc).toNat / 64 = 3 ∨ ((s.load s.pc).getLsbD 5 = true ∧ (s.load s.pc).getLsbD 4 = true) then
      fetchAndExec s = .next (fatalEnd s .decode)
    else if s.pc.toNat + (s.load s.pc).toNat / 64 > 255 then fetchAndExec s = .next (fatalEnd s .memRange)
    else if s.load s.pc ∉ opcodeBytes then fetchAndExec s = .next (fatalEnd s .decode)
    else ∃ i, fetchAndExec s = exec i s ∧
      ∀ (k : Nat) (h : k < (encode i).length), s.memRead (s.pc.toNat + k) = .ok (encode i)[k]

/-- Key events before a fetch: the last payload in cell 0xF4, IS bit 1 set, nothing else (43_cycle.md R126, 60_exceptions.md
R154). Their place in the cycle is the spec's decision D16 (log 9). -/
def Obligations.KeyEventsAreRecorded : Prop :=
  ∀ (s : State) (keys : List Byte), AfterKeys s (State.applyEvents (keys.map .key) s) keys

/-- A cancel or a stop in the batch of a cycle's input, given or drawn, ends the run before any dispatch, tick or fetch: the
keys before it are recorded, the rest of the batch is dropped, PC and fatal status stay (43_cycle.md R126, 60_exceptions.md
R155). The moment is the spec's decisions D16 and D18 (log 9). -/
def Obligations.StopEndsTheRunBeforeTheFetch : Prop :=
  ∀ (s later : State) (keys : List Byte) (e : Event) (rest : List Event) (tick : Bool),
    s.running = true → e = .cancel ∨ e = .stop → s.takeInput = (⟨keys.map .key ++ e :: rest, tick⟩, later) →
    ∃ t, AfterKeys { later with running := false } t keys ∧ step s = .next t

/-- Step 2 in every state: a tick sets IS bit 0, whatever IM is, and nothing else; no tick does nothing. In a cycle with a
tick, its input given or drawn and with any events that leave the machine running, the bit is set after the dispatch check:
with no line to service the instruction at the old PC executes, and with one the handler's first instruction, in both cases
with the bit pending (43_cycle.md R128). That the tick is a free input is the spec's decision D17 (log 2). -/
def Obligations.TickWaitsForTheNextCheck : Prop :=
  (∀ s : State, s.timerTick true = withTick s ∧ s.timerTick false = s ∧
    ∀ j : Index, (s.timerTick true).is.getLsbD j = (s.is.getLsbD j || j = 0)) ∧
  (∀ (s later u : State) (events : List Event), s.running = true → s.takeInput = (⟨events, true⟩, later) →
    u = State.applyEvents events later → u.running = true →
    ((∀ j, ¬ Serviceable u j) → step s = fetchAndExec (withTick u) ∧ (withTick u).pc = s.pc) ∧
    (∀ i, Chosen u i → step s = fetchAndExec (withTick (u.interruptEntry i))))

/-! ### Interrupts -/

/-- The dispatch check of a cycle, its input given or drawn, after the events of step 0 and before the fetch: if no line is
pending and enabled nothing happens; otherwise the lowest such line is entered, and only that one: the others stay pending,
and steps 2 to 7 of the same cycle go on at the handler's address, without a fatal error of the check's own (43_cycle.md R127,
60_exceptions.md R147, R148). -/
def Obligations.DispatchPrecedesTheFetch : Prop :=
  ∀ (s later u : State) (events : List Event) (tick : Bool),
    s.running = true → s.takeInput = (⟨events, tick⟩, later) →
    u = State.applyEvents events later → u.running = true →
    ((∀ i, ¬ Serviceable u i) → step s = fetchAndExec (u.timerTick tick)) ∧
    (∀ i, Chosen u i → step s = fetchAndExec ((u.interruptEntry i).timerTick tick) ∧
      (u.interruptEntry i).pc = (u.interruptEntry i).load (0xF8 + BitVec.ofNat 8 i) ∧
      (u.interruptEntry i).fatal = u.fatal ∧
      ∀ j : Index, (u.interruptEntry i).is.getLsbD j = (u.is.getLsbD j && j ≠ i))

/-- A pending line waits: steps 0 to 2 of a cycle clear a pending bit only of the line they enter, which is enabled; an
instruction clears one only by writing R6 (IRET among them), INT never does; the host clears one only by a reset; a request
for a pending line is absorbed; with IM = 0 no line is entered (60_exceptions.md R146). -/
def Obligations.PendingLinesWait : Prop :=
  (∀ (s : State) (input : CycleInput) (j : Index), s.is.getLsbD j = true → (s.beforeFetch input).is.getLsbD j = false →
    Chosen (State.applyEvents input.events s) j) ∧
  (∀ (i : Instr) (s t : State) (j : Index), exec i s = .next t → s.is.getLsbD j = true → t.is.getLsbD j = false →
    6 ∈ writtenRegs i ∧ ∀ a, i ≠ .int a) ∧
  (∀ (s t : State) (j : Index), s.running = false → step s = .next t → s.is.getLsbD j = true → t.is.getLsbD j = false →
    ∃ rest, s.host = .reset :: rest) ∧
  (∀ (s : State) (j : Index), (s.request j).is.getLsbD j = true ∧ (s.is.getLsbD j = true → s.request j = s)) ∧
  (∀ s : State, s.im = 0 → s.dispatchCheck = s)

/-- Interrupt entry: the serviced bit is cleared first; PC, FL, R0..R6 stand at SP - 1 to SP - 9 (modulo 256), the pushed R6
with the bit clear; SP falls by 9; the PC is the byte then at 0xF8 + line; no other register, cell or part of the state
changes (60_exceptions.md R149). -/
def Obligations.InterruptEntryFrame : Prop :=
  ∀ (s : State) (i : Index),
    (s.interruptEntry i).load (s.sp - 1) = s.pc ∧ (s.interruptEntry i).load (s.sp - 2) = s.fl ∧
    (s.interruptEntry i).load (s.sp - 3) = s.reg 0 ∧ (s.interruptEntry i).load (s.sp - 4) = s.reg 1 ∧
    (s.interruptEntry i).load (s.sp - 5) = s.reg 2 ∧ (s.interruptEntry i).load (s.sp - 6) = s.reg 3 ∧
    (s.interruptEntry i).load (s.sp - 7) = s.reg 4 ∧ (s.interruptEntry i).load (s.sp - 8) = s.reg 5 ∧
    (s.interruptEntry i).load (s.sp - 9) = (s.interruptEntry i).is ∧
    (∀ j : Index, (s.interruptEntry i).is.getLsbD j = (s.is.getLsbD j && j ≠ i)) ∧
    (∀ b : Byte, (∀ k : Nat, 1 ≤ k → k ≤ 9 → b ≠ s.sp - BitVec.ofNat 8 k) → (s.interruptEntry i).load b = s.load b) ∧
    (s.interruptEntry i).sp = s.sp - 9 ∧ (∀ j : Index, j < 6 → (s.interruptEntry i).reg j = s.reg j) ∧
    (s.interruptEntry i).pc = (s.interruptEntry i).load (0xF8 + BitVec.ofNat 8 i) ∧
    { s.interruptEntry i with regs := s.regs, mem := s.mem, pc := s.pc } = s

/-- An interrupt whose line is chosen diverts the PC to the line's vector and clears its IS bit, and IRET from there restores
PC, FL, R0..R6 (IS with the bit clear) and SP to their values before the interrupt; only the nine frame cells differ
(60_exceptions.md R152, the testable property T5). It holds for every SP, also where the frame wraps, which is the spec's
decision D10 (log 15), and for all 8 bits of FL, which is D11 (log 16). -/
def Obligations.InterruptReturnRestoresThePreInterruptState : Prop :=
  ∀ (s : State) (i : Index), Chosen s i →
    s.dispatchCheck.pc = s.dispatchCheck.load (0xF8 + BitVec.ofNat 8 i) ∧ s.dispatchCheck.is.getLsbD i = false ∧
    ∃ t, exec .iret s.dispatchCheck = .next t ∧ t.pc = s.pc ∧ t.fl = s.fl ∧
      (∀ j : Index, j ≠ 6 → t.reg j = s.reg j) ∧ (∀ j : Index, t.is.getLsbD j = (s.is.getLsbD j && j ≠ i)) ∧
      (∀ b : Byte, (∀ k : Nat, 1 ≤ k → k ≤ 9 → b ≠ s.sp - BitVec.ofNat 8 k) → t.load b = s.load b) ∧
      { t with regs := s.regs, mem := s.mem } = s

/-! ### Reset, load, start -/

/-- The host's reset gives the same state from any state of a machine that is not running: every cell 0, R0..R4 and IS 0, IM 1,
SP 0xF4, PC and FL 0, no fatal status, no output (10_state.md R27, the values of R26). The list of given inputs is emptied, and
the host's later commands and the draw counter stay: the model's choice (log 10; the fields are those of logs 2 and 3). -/
def Obligations.ResetIsTheSameFromAnyState : Prop :=
  ∀ (s : State) (rest : List HostCommand), s.running = false → s.host = .reset :: rest →
    ∃ t, step s = .next t ∧ t.regs = #v[0, 0, 0, 0, 0, 0b00000001, 0, 0xF4] ∧ t.pc = 0 ∧ t.fl = 0 ∧
      (∀ b, Memory.get t.mem b = 0) ∧ t.running = false ∧ t.fatal = none ∧ t.out = [] ∧ t.inputs = [] ∧
      t = { State.reset with host := rest, drawn := s.drawn }

/-- After a reset, load and start: byte k of the image stands at address k, the cells above the image keep their value, and the
machine runs with everything else unchanged; an image of more than 256 bytes leaves the reset state, from which a start is out
of order (70_reset_and_hazards.md R171, R172). The three commands and their order are the spec's decision D23 (log 3). -/
def Obligations.LoadThenStartBeginsTheRun : Prop :=
  ∀ (s : State) (image : List Byte) (rest : List HostCommand), s.running = false → s.life = .reset →
    s.host = .load image :: .start :: rest →
    (image.length ≤ 256 →
      ∃ t, Host.Core.run core 2 s = .next t ∧
        (∀ b, Memory.get t.mem b = (image[b]?).getD (Memory.get s.mem b)) ∧ t.running = true ∧
        t.life = .started ∧ t.host = rest ∧
        { t with mem := s.mem, running := s.running, life := s.life, host := s.host } = s) ∧
    (image.length > 256 →
      step s = .next { s with host := .start :: rest } ∧ Host.Core.run core 2 s = .refused (.hostOutOfOrder .start))

/-- An ended run is final: with no host command it stays as it is for any number of steps (43_cycle.md R133). -/
def Obligations.EndedRunsStayAsTheyAre : Prop :=
  ∀ (s : State) (n : Nat), s.running = false → s.host = [] → Host.Core.run core n s = .next s

/-! ### Invariants -/

/-- Every step from a legal state gives a legal state: canonical memory, no fatal status while running, running only once
started. -/
def Obligations.StepsKeepTheInvariant : Prop :=
  ∀ s t : State, s.Inv → step s = .next t → t.Inv

/-- The state after reset is legal. -/
def Obligations.ResetMeetsTheInvariant : Prop := State.reset.Inv

/-- The console trace only grows: a step appends at most one record, except that the host's reset empties it (10_state.md R25
(c): "output, append-only"). -/
def Obligations.OutputIsAppendOnly : Prop :=
  ∀ s t : State, step s = .next t →
    t.out = s.out ∨ (∃ r, t.out = s.out ++ [r]) ∨ (s.running = false ∧ ∃ rest, s.host = .reset :: rest ∧ t.out = [])
end

