-- ==== Sys2Proof/Laws/Memory.lean ====
section
/-! SUPPORT. The laws of memory: a read after a write, and the canonical form that every operation keeps. -/

namespace Sys2Proof.Machine

@[simp] theorem Memory.get_nil (a : Nat) : Memory.get [] a = 0 := rfl

theorem Memory.get_filter (m : Memory) (a b : Nat) :
    Memory.get (m.filter (fun c => c.1 ≠ a)) b = if b = a then 0 else Memory.get m b := by
  induction m with
  | nil => simp
  | cons c m ih =>
    by_cases hc : c.1 = a
    · simp only [List.filter_cons, hc, ne_eq, not_true_eq_false, decide_false, Bool.false_eq_true, if_false]
      simp only [ne_eq] at ih
      rw [ih]
      by_cases hb : b = a
      · simp [hb]
      · have : ¬ a = b := fun h => hb h.symm
        simp [hb, Memory.get, hc, this]
    · simp only [List.filter_cons, ne_eq, hc, not_false_eq_true, decide_true, if_true, Memory.get]
      simp only [ne_eq] at ih
      rw [ih]
      by_cases hb : b = a
      · simp [hb, hc]
      · simp [hb]

theorem Memory.get_insert (m : Memory) (a b : Nat) (v : Byte) (h : ∀ c ∈ m, c.1 ≠ a) :
    Memory.get (Memory.insert m (a, v)) b = if b = a then v else Memory.get m b := by
  induction m with
  | nil =>
    by_cases hb : b = a
    · simp [Memory.insert, Memory.get, hb]
    · have : ¬ a = b := fun h => hb h.symm
      simp [Memory.insert, Memory.get, hb, this]
  | cons c m ih =>
    have hc : c.1 ≠ a := h c (by simp)
    have ih := ih (fun d hd => h d (by simp [hd]))
    unfold Memory.insert
    split
    · by_cases hb : b = a
      · simp [Memory.get, hb]
      · have : ¬ a = b := fun h => hb h.symm
        simp [Memory.get, hb, this]
    · simp only [Memory.get]
      rw [ih]
      by_cases hb : b = a
      · simp [hb, hc]
      · simp [hb]

/-- Read after write: the written address gives the value written, every other address what it gave before. -/
@[simp] theorem Memory.get_put (m : Memory) (a b : Nat) (v : Byte) :
    Memory.get (Memory.put m a v) b = if b = a then v else Memory.get m b := by
  unfold Memory.put
  split
  · rename_i hv
    rw [Memory.get_filter, hv]
  · rw [Memory.get_insert _ _ _ _ (by simp), Memory.get_filter]
    by_cases hb : b = a <;> simp [hb]

/-- A list of bytes written from an address upward: byte k stands at address `a + k`, the other cells keep theirs. -/
theorem Memory.get_putAll (m : Memory) (a b : Nat) (vs : List Byte) :
    Memory.get (Memory.putAll m a vs) b = if h : a ≤ b ∧ b - a < vs.length then vs[b - a]'h.2 else Memory.get m b := by
  induction vs generalizing m a with
  | nil => simp [Memory.putAll]
  | cons v vs ih =>
    simp only [Memory.putAll]
    rw [ih]
    by_cases hb : b = a
    · subst hb
      simp
    · by_cases hl : a + 1 ≤ b ∧ b - (a + 1) < vs.length
      · have h2 : a ≤ b ∧ b - a < (v :: vs).length := by simp; omega
        have h3 : b - a = (b - (a + 1)) + 1 := by omega
        rw [dif_pos hl, dif_pos h2]
        simp [h3]
      · have h2 : ¬ (a ≤ b ∧ b - a < (v :: vs).length) := by simp at hl ⊢; omega
        rw [dif_neg hl, dif_neg h2]
        simp [hb]

theorem Memory.mem_insert (m : Memory) (c d : Host.Cell) : d ∈ Memory.insert m c ↔ d = c ∨ d ∈ m := by
  induction m with
  | nil => simp [Memory.insert]
  | cons e m ih =>
    unfold Memory.insert
    split
    · simp
    · simp [ih]
      tauto

theorem Memory.pairwise_insert (m : Memory) (c : Host.Cell) (hm : m.Pairwise (fun c d => c.1 < d.1))
    (h : ∀ d ∈ m, d.1 ≠ c.1) : (Memory.insert m c).Pairwise (fun c d => c.1 < d.1) := by
  induction m with
  | nil => simp [Memory.insert]
  | cons e m ih =>
    have he : e.1 ≠ c.1 := h e (by simp)
    rw [List.pairwise_cons] at hm
    have ih := ih hm.2 (fun d hd => h d (by simp [hd]))
    unfold Memory.insert
    split
    · rename_i hlt
      refine List.pairwise_cons.2 ⟨?_, List.pairwise_cons.2 hm⟩
      intro d hd
      rcases List.mem_cons.1 hd with rfl | hd
      · exact hlt
      · exact Nat.lt_trans hlt (hm.1 d hd)
    · rename_i hlt
      refine List.pairwise_cons.2 ⟨?_, ih⟩
      intro d hd
      rcases (Memory.mem_insert m c d).1 hd with rfl | hd
      · omega
      · exact hm.1 d hd

/-- The canonical form, as three facts. -/
theorem Memory.wf_iff (m : Memory) :
    Memory.wf m = true ↔ m.Pairwise (fun c d => c.1 < d.1) ∧ ∀ c ∈ m, c.1 < 256 ∧ c.2 ≠ 0 := by
  unfold Memory.wf
  rw [Bool.and_eq_true, decide_eq_true_iff, List.all_eq_true]
  refine and_congr_right fun _ => forall_congr' fun c => forall_congr' fun _ => ?_
  rw [decide_eq_true_iff]
  exact Iff.rfl

@[simp] theorem Memory.wf_nil : Memory.wf [] = true := rfl

/-- A write inside the address space keeps the canonical form. -/
theorem Memory.wf_put (m : Memory) (a : Nat) (v : Byte) (ha : a < 256) (h : Memory.wf m = true) :
    Memory.wf (Memory.put m a v) = true := by
  rw [Memory.wf_iff] at h ⊢
  have hf : (m.filter (fun c => c.1 ≠ a)).Pairwise (fun c d => c.1 < d.1) := h.1.filter _
  unfold Memory.put
  split
  · exact ⟨hf, fun c hc => h.2 c (List.mem_filter.1 hc).1⟩
  · rename_i hv
    refine ⟨Memory.pairwise_insert _ _ hf (fun d hd => by simpa using (List.mem_filter.1 hd).2), ?_⟩
    intro c hc
    rcases (Memory.mem_insert _ _ c).1 hc with rfl | hc
    · exact ⟨ha, hv⟩
    · exact h.2 c (List.mem_filter.1 hc).1

/-- A list written inside the address space keeps the canonical form. -/
theorem Memory.wf_putAll (m : Memory) (a : Nat) (vs : List Byte) (ha : a + vs.length ≤ 256)
    (h : Memory.wf m = true) : Memory.wf (Memory.putAll m a vs) = true := by
  induction vs generalizing m a with
  | nil => exact h
  | cons v vs ih =>
    simp only [List.length_cons] at ha
    exact ih _ _ (by omega) (Memory.wf_put m a v (by omega) h)

/-- Canonical memories that read alike are equal: equal memories are equal data. -/
theorem Memory.ext_of_wf (m n : Memory) (hm : Memory.wf m = true) (hn : Memory.wf n = true)
    (h : ∀ a, Memory.get m a = Memory.get n a) : m = n := by
  have low : ∀ (l : Memory) (a : Nat), (∀ d ∈ l, a < d.1) → Memory.get l a = 0 := by
    intro l a hl
    induction l with
    | nil => rfl
    | cons d l ih =>
      have : d.1 ≠ a := by have := hl d (by simp); omega
      simp [Memory.get, this, ih (fun e he => hl e (by simp [he]))]
  rw [Memory.wf_iff] at hm hn
  induction m generalizing n with
  | nil =>
    cases n with
    | nil => rfl
    | cons d n =>
      have := h d.1
      simp [Memory.get] at this
      exact absurd this.symm (hn.2 d (by simp)).2
  | cons c m ih =>
    cases n with
    | nil =>
      have := h c.1
      simp [Memory.get] at this
      exact absurd this (hm.2 c (by simp)).2
    | cons d n =>
      have hc := List.pairwise_cons.1 hm.1
      have hd := List.pairwise_cons.1 hn.1
      have key : c.1 = d.1 := by
        rcases Nat.lt_trichotomy c.1 d.1 with hlt | heq | hlt
        · have := h c.1
          rw [low (d :: n) c.1 (by
            intro e he
            rcases List.mem_cons.1 he with rfl | he
            · exact hlt
            · exact Nat.lt_trans hlt (hd.1 e he))] at this
          simp [Memory.get] at this
          exact absurd this (hm.2 c (by simp)).2
        · exact heq
        · have := h d.1
          rw [low (c :: m) d.1 (by
            intro e he
            rcases List.mem_cons.1 he with rfl | he
            · exact hlt
            · exact Nat.lt_trans hlt (hc.1 e he))] at this
          simp [Memory.get] at this
          exact absurd this.symm (hn.2 d (by simp)).2
      have val : c.2 = d.2 := by
        have := h c.1
        simpa [Memory.get, key] using this
      have tail : m = n := by
        refine ih n ⟨hc.2, fun e he => hm.2 e (by simp [he])⟩ ⟨hd.2, fun e he => hn.2 e (by simp [he])⟩ ?_
        intro a
        by_cases ha : c.1 = a
        · rw [← ha, low m c.1 hc.1, key, low n d.1 hd.1]
        · have := h a
          have hda : d.1 ≠ a := key ▸ ha
          simpa [Memory.get, ha, hda] using this
      rw [tail, Prod.ext key val]

end Sys2Proof.Machine
end

