-- ==== Sys2Proof/Laws/State.lean ====
section
/-! SUPPORT. What each update of the state leaves unchanged, one lemma per field per update, and the values of the
fields it writes. -/

namespace Sys2Proof.Machine

/-! ### `setReg` -/

@[simp] theorem State.setReg_pc (s : State) (i : Index) (v : Byte) : (s.setReg i v).pc = s.pc := rfl
@[simp] theorem State.setReg_fl (s : State) (i : Index) (v : Byte) : (s.setReg i v).fl = s.fl := rfl
@[simp] theorem State.setReg_mem (s : State) (i : Index) (v : Byte) : (s.setReg i v).mem = s.mem := rfl
@[simp] theorem State.setReg_running (s : State) (i : Index) (v : Byte) : (s.setReg i v).running = s.running := rfl
@[simp] theorem State.setReg_fatal (s : State) (i : Index) (v : Byte) : (s.setReg i v).fatal = s.fatal := rfl
@[simp] theorem State.setReg_out (s : State) (i : Index) (v : Byte) : (s.setReg i v).out = s.out := rfl
@[simp] theorem State.setReg_inputs (s : State) (i : Index) (v : Byte) : (s.setReg i v).inputs = s.inputs := rfl
@[simp] theorem State.setReg_drawn (s : State) (i : Index) (v : Byte) : (s.setReg i v).drawn = s.drawn := rfl
@[simp] theorem State.setReg_host (s : State) (i : Index) (v : Byte) : (s.setReg i v).host = s.host := rfl
@[simp] theorem State.setReg_life (s : State) (i : Index) (v : Byte) : (s.setReg i v).life = s.life := rfl
@[simp] theorem State.setReg_regs (s : State) (i : Index) (v : Byte) : (s.setReg i v).regs = s.regs.set i v := rfl

/-! ### `store` -/

@[simp] theorem State.store_regs (s : State) (a v : Byte) : (s.store a v).regs = s.regs := rfl
@[simp] theorem State.store_pc (s : State) (a v : Byte) : (s.store a v).pc = s.pc := rfl
@[simp] theorem State.store_fl (s : State) (a v : Byte) : (s.store a v).fl = s.fl := rfl
@[simp] theorem State.store_running (s : State) (a v : Byte) : (s.store a v).running = s.running := rfl
@[simp] theorem State.store_fatal (s : State) (a v : Byte) : (s.store a v).fatal = s.fatal := rfl
@[simp] theorem State.store_out (s : State) (a v : Byte) : (s.store a v).out = s.out := rfl
@[simp] theorem State.store_inputs (s : State) (a v : Byte) : (s.store a v).inputs = s.inputs := rfl
@[simp] theorem State.store_drawn (s : State) (a v : Byte) : (s.store a v).drawn = s.drawn := rfl
@[simp] theorem State.store_host (s : State) (a v : Byte) : (s.store a v).host = s.host := rfl
@[simp] theorem State.store_life (s : State) (a v : Byte) : (s.store a v).life = s.life := rfl
@[simp] theorem State.store_mem (s : State) (a v : Byte) : (s.store a v).mem = Memory.put s.mem a.toNat v := rfl

/-! ### `push` -/

@[simp] theorem State.push_pc (s : State) (v : Byte) : (s.push v).pc = s.pc := rfl
@[simp] theorem State.push_fl (s : State) (v : Byte) : (s.push v).fl = s.fl := rfl
@[simp] theorem State.push_running (s : State) (v : Byte) : (s.push v).running = s.running := rfl
@[simp] theorem State.push_fatal (s : State) (v : Byte) : (s.push v).fatal = s.fatal := rfl
@[simp] theorem State.push_out (s : State) (v : Byte) : (s.push v).out = s.out := rfl
@[simp] theorem State.push_inputs (s : State) (v : Byte) : (s.push v).inputs = s.inputs := rfl
@[simp] theorem State.push_drawn (s : State) (v : Byte) : (s.push v).drawn = s.drawn := rfl
@[simp] theorem State.push_host (s : State) (v : Byte) : (s.push v).host = s.host := rfl
@[simp] theorem State.push_life (s : State) (v : Byte) : (s.push v).life = s.life := rfl
@[simp] theorem State.push_mem (s : State) (v : Byte) :
    (s.push v).mem = Memory.put s.mem ((s.setReg Config.spIndex (s.sp - 1)).sp).toNat v := rfl
@[simp] theorem State.push_regs (s : State) (v : Byte) :
    (s.push v).regs = s.regs.set Config.spIndex (s.sp - 1) := rfl

/-! ### `pop` -/

@[simp] theorem State.pop_pc (s : State) : (s.pop.2).pc = s.pc := rfl
@[simp] theorem State.pop_fl (s : State) : (s.pop.2).fl = s.fl := rfl
@[simp] theorem State.pop_mem (s : State) : (s.pop.2).mem = s.mem := rfl
@[simp] theorem State.pop_running (s : State) : (s.pop.2).running = s.running := rfl
@[simp] theorem State.pop_fatal (s : State) : (s.pop.2).fatal = s.fatal := rfl
@[simp] theorem State.pop_out (s : State) : (s.pop.2).out = s.out := rfl
@[simp] theorem State.pop_inputs (s : State) : (s.pop.2).inputs = s.inputs := rfl
@[simp] theorem State.pop_drawn (s : State) : (s.pop.2).drawn = s.drawn := rfl
@[simp] theorem State.pop_host (s : State) : (s.pop.2).host = s.host := rfl
@[simp] theorem State.pop_life (s : State) : (s.pop.2).life = s.life := rfl
@[simp] theorem State.pop_value (s : State) : s.pop.1 = s.load s.sp := rfl
@[simp] theorem State.pop_regs (s : State) : s.pop.2.regs = s.regs.set Config.spIndex (s.sp + 1) := rfl

/-! ### `popReg` -/

@[simp] theorem State.popReg_pc (s : State) (i : Index) : (s.popReg i).pc = s.pc := rfl
@[simp] theorem State.popReg_fl (s : State) (i : Index) : (s.popReg i).fl = s.fl := rfl
@[simp] theorem State.popReg_mem (s : State) (i : Index) : (s.popReg i).mem = s.mem := rfl
@[simp] theorem State.popReg_running (s : State) (i : Index) : (s.popReg i).running = s.running := rfl
@[simp] theorem State.popReg_fatal (s : State) (i : Index) : (s.popReg i).fatal = s.fatal := rfl
@[simp] theorem State.popReg_out (s : State) (i : Index) : (s.popReg i).out = s.out := rfl
@[simp] theorem State.popReg_inputs (s : State) (i : Index) : (s.popReg i).inputs = s.inputs := rfl
@[simp] theorem State.popReg_drawn (s : State) (i : Index) : (s.popReg i).drawn = s.drawn := rfl
@[simp] theorem State.popReg_host (s : State) (i : Index) : (s.popReg i).host = s.host := rfl
@[simp] theorem State.popReg_life (s : State) (i : Index) : (s.popReg i).life = s.life := rfl

/-! ### `raise` -/

@[simp] theorem State.raise_regs (s : State) (c : Cause) : (s.raise c).regs = s.regs := rfl
@[simp] theorem State.raise_pc (s : State) (c : Cause) : (s.raise c).pc = s.pc := rfl
@[simp] theorem State.raise_fl (s : State) (c : Cause) : (s.raise c).fl = s.fl := rfl
@[simp] theorem State.raise_mem (s : State) (c : Cause) : (s.raise c).mem = s.mem := rfl
@[simp] theorem State.raise_out (s : State) (c : Cause) : (s.raise c).out = s.out := rfl
@[simp] theorem State.raise_inputs (s : State) (c : Cause) : (s.raise c).inputs = s.inputs := rfl
@[simp] theorem State.raise_drawn (s : State) (c : Cause) : (s.raise c).drawn = s.drawn := rfl
@[simp] theorem State.raise_host (s : State) (c : Cause) : (s.raise c).host = s.host := rfl
@[simp] theorem State.raise_life (s : State) (c : Cause) : (s.raise c).life = s.life := rfl
@[simp] theorem State.raise_running (s : State) (c : Cause) : (s.raise c).running = false := rfl
@[simp] theorem State.raise_fatal (s : State) (c : Cause) : (s.raise c).fatal = some c := rfl

/-! ### `request` -/

@[simp] theorem State.request_pc (s : State) (i : Index) : (s.request i).pc = s.pc := rfl
@[simp] theorem State.request_fl (s : State) (i : Index) : (s.request i).fl = s.fl := rfl
@[simp] theorem State.request_mem (s : State) (i : Index) : (s.request i).mem = s.mem := rfl
@[simp] theorem State.request_running (s : State) (i : Index) : (s.request i).running = s.running := rfl
@[simp] theorem State.request_fatal (s : State) (i : Index) : (s.request i).fatal = s.fatal := rfl
@[simp] theorem State.request_out (s : State) (i : Index) : (s.request i).out = s.out := rfl
@[simp] theorem State.request_inputs (s : State) (i : Index) : (s.request i).inputs = s.inputs := rfl
@[simp] theorem State.request_drawn (s : State) (i : Index) : (s.request i).drawn = s.drawn := rfl
@[simp] theorem State.request_host (s : State) (i : Index) : (s.request i).host = s.host := rfl
@[simp] theorem State.request_life (s : State) (i : Index) : (s.request i).life = s.life := rfl

/-! ### `acknowledge` -/

@[simp] theorem State.acknowledge_pc (s : State) (i : Index) : (s.acknowledge i).pc = s.pc := rfl
@[simp] theorem State.acknowledge_fl (s : State) (i : Index) : (s.acknowledge i).fl = s.fl := rfl
@[simp] theorem State.acknowledge_mem (s : State) (i : Index) : (s.acknowledge i).mem = s.mem := rfl
@[simp] theorem State.acknowledge_running (s : State) (i : Index) : (s.acknowledge i).running = s.running := rfl
@[simp] theorem State.acknowledge_fatal (s : State) (i : Index) : (s.acknowledge i).fatal = s.fatal := rfl
@[simp] theorem State.acknowledge_out (s : State) (i : Index) : (s.acknowledge i).out = s.out := rfl
@[simp] theorem State.acknowledge_inputs (s : State) (i : Index) : (s.acknowledge i).inputs = s.inputs := rfl
@[simp] theorem State.acknowledge_drawn (s : State) (i : Index) : (s.acknowledge i).drawn = s.drawn := rfl
@[simp] theorem State.acknowledge_host (s : State) (i : Index) : (s.acknowledge i).host = s.host := rfl
@[simp] theorem State.acknowledge_life (s : State) (i : Index) : (s.acknowledge i).life = s.life := rfl

/-! ### `interruptEntry` -/

@[simp] theorem State.interruptEntry_fl (s : State) (i : Index) : (s.interruptEntry i).fl = s.fl := by
  simp [State.interruptEntry, State.context]
@[simp] theorem State.interruptEntry_running (s : State) (i : Index) : (s.interruptEntry i).running = s.running := by
  simp [State.interruptEntry, State.context]
@[simp] theorem State.interruptEntry_fatal (s : State) (i : Index) : (s.interruptEntry i).fatal = s.fatal := by
  simp [State.interruptEntry, State.context]
@[simp] theorem State.interruptEntry_out (s : State) (i : Index) : (s.interruptEntry i).out = s.out := by
  simp [State.interruptEntry, State.context]
@[simp] theorem State.interruptEntry_inputs (s : State) (i : Index) : (s.interruptEntry i).inputs = s.inputs := by
  simp [State.interruptEntry, State.context]
@[simp] theorem State.interruptEntry_drawn (s : State) (i : Index) : (s.interruptEntry i).drawn = s.drawn := by
  simp [State.interruptEntry, State.context]
@[simp] theorem State.interruptEntry_host (s : State) (i : Index) : (s.interruptEntry i).host = s.host := by
  simp [State.interruptEntry, State.context]
@[simp] theorem State.interruptEntry_life (s : State) (i : Index) : (s.interruptEntry i).life = s.life := by
  simp [State.interruptEntry, State.context]

/-! ### `interruptReturn` -/

@[simp] theorem State.interruptReturn_mem (s : State) : (s.interruptReturn).mem = s.mem := by
  simp [State.interruptReturn, restoredRegs]
@[simp] theorem State.interruptReturn_running (s : State) : (s.interruptReturn).running = s.running := by
  simp [State.interruptReturn, restoredRegs]
@[simp] theorem State.interruptReturn_fatal (s : State) : (s.interruptReturn).fatal = s.fatal := by
  simp [State.interruptReturn, restoredRegs]
@[simp] theorem State.interruptReturn_out (s : State) : (s.interruptReturn).out = s.out := by
  simp [State.interruptReturn, restoredRegs]
@[simp] theorem State.interruptReturn_inputs (s : State) : (s.interruptReturn).inputs = s.inputs := by
  simp [State.interruptReturn, restoredRegs]
@[simp] theorem State.interruptReturn_drawn (s : State) : (s.interruptReturn).drawn = s.drawn := by
  simp [State.interruptReturn, restoredRegs]
@[simp] theorem State.interruptReturn_host (s : State) : (s.interruptReturn).host = s.host := by
  simp [State.interruptReturn, restoredRegs]
@[simp] theorem State.interruptReturn_life (s : State) : (s.interruptReturn).life = s.life := by
  simp [State.interruptReturn, restoredRegs]

/-! ### `keyEvent` -/

@[simp] theorem State.keyEvent_pc (s : State) (v : Byte) : (s.keyEvent v).pc = s.pc := rfl
@[simp] theorem State.keyEvent_fl (s : State) (v : Byte) : (s.keyEvent v).fl = s.fl := rfl
@[simp] theorem State.keyEvent_running (s : State) (v : Byte) : (s.keyEvent v).running = s.running := rfl
@[simp] theorem State.keyEvent_fatal (s : State) (v : Byte) : (s.keyEvent v).fatal = s.fatal := rfl
@[simp] theorem State.keyEvent_out (s : State) (v : Byte) : (s.keyEvent v).out = s.out := rfl
@[simp] theorem State.keyEvent_inputs (s : State) (v : Byte) : (s.keyEvent v).inputs = s.inputs := rfl
@[simp] theorem State.keyEvent_drawn (s : State) (v : Byte) : (s.keyEvent v).drawn = s.drawn := rfl
@[simp] theorem State.keyEvent_host (s : State) (v : Byte) : (s.keyEvent v).host = s.host := rfl
@[simp] theorem State.keyEvent_life (s : State) (v : Byte) : (s.keyEvent v).life = s.life := rfl

end Sys2Proof.Machine
end

