-- ==== Sys2Proof/Laws/Ops.lean ====
section
/-! SUPPORT. One spec lemma per shared operation: what reads give after each update, and everything an operand access,
an advance and the end of an instruction can answer. -/

namespace Sys2Proof.Machine

/-! ### Registers -/

@[simp] theorem State.reg_setReg (s : State) (i j : Index) (v : Byte) :
    (s.setReg i v).reg j = if j = i then v else s.reg j := by
  simp only [State.reg, State.setReg, Fin.getElem_fin, Vector.getElem_set]
  by_cases h : j = i
  · simp [h]
  · have : ¬ (i : Nat) = j := fun e => h (Fin.ext e.symm)
    simp [h, this]

/-- Registers that read alike are the same register file. -/
theorem State.regs_ext {s t : State} (h : ∀ i, s.reg i = t.reg i) : s.regs = t.regs := by
  apply Vector.ext
  intro i hi
  exact h ⟨i, hi⟩

@[simp] theorem State.sp_setReg (s : State) (i : Index) (v : Byte) :
    (s.setReg i v).sp = if i = Config.spIndex then v else s.sp := by
  simp only [State.sp, State.reg_setReg]
  by_cases h : i = Config.spIndex
  · simp [h]
  · have : ¬ Config.spIndex = i := fun e => h e.symm
    simp [h, this]

@[simp] theorem State.reg_store (s : State) (a v : Byte) (i : Index) : (s.store a v).reg i = s.reg i := rfl

@[simp] theorem State.sp_store (s : State) (a v : Byte) : (s.store a v).sp = s.sp := rfl

/-! ### Memory -/

@[simp] theorem State.load_store (s : State) (a b v : Byte) :
    (s.store a v).load b = if b = a then v else s.load b := by
  simp only [State.load, State.store, Memory.get_put]
  by_cases h : b = a
  · simp [h]
  · have : ¬ b.toNat = a.toNat := fun e => h (BitVec.eq_of_toNat_eq e)
    simp [h, this]

@[simp] theorem State.load_setReg (s : State) (i : Index) (v b : Byte) : (s.setReg i v).load b = s.load b := rfl

/-- An address held in a byte is in range (20_memory.md R32). -/
@[simp] theorem State.memRead_byte (s : State) (a : Byte) : s.memRead a.toNat = .ok (s.load a) := by
  have : ¬ a.toNat > 255 := by have := a.isLt; omega
  simp [State.memRead, State.load, this]

/-- An address held in a byte is in range (20_memory.md R32). -/
@[simp] theorem State.memWrite_byte (s : State) (a v : Byte) : s.memWrite a.toNat v = .ok (s.store a v) := by
  have : ¬ a.toNat > 255 := by have := a.isLt; omega
  simp [State.memWrite, State.store, this]

/-! ### Stack -/

@[simp] theorem State.reg_push (s : State) (v : Byte) (i : Index) :
    (s.push v).reg i = if i = Config.spIndex then s.sp - 1 else s.reg i := by
  simp [State.push]

@[simp] theorem State.sp_push (s : State) (v : Byte) : (s.push v).sp = s.sp - 1 := by simp [State.push]

@[simp] theorem State.load_push (s : State) (v b : Byte) :
    (s.push v).load b = if b = s.sp - 1 then v else s.load b := by simp [State.push]

@[simp] theorem State.reg_pop (s : State) (i : Index) :
    s.pop.2.reg i = if i = Config.spIndex then s.sp + 1 else s.reg i := by simp [State.pop]

@[simp] theorem State.sp_pop (s : State) : s.pop.2.sp = s.sp + 1 := by simp [State.pop]

@[simp] theorem State.load_pop (s : State) (b : Byte) : s.pop.2.load b = s.load b := rfl

@[simp] theorem State.reg_popReg (s : State) (i j : Index) :
    (s.popReg i).reg j = if j = i then s.load s.sp else if j = Config.spIndex then s.sp + 1 else s.reg j := by
  simp [State.popReg]

@[simp] theorem State.load_popReg (s : State) (i : Index) (b : Byte) : (s.popReg i).load b = s.load b := rfl

/-! ### Operands -/

/-- The operand byte of a register. -/
theorem regIndex_ofNat (i : Index) : regIndex (BitVec.ofNat 8 i) = .ok i := by
  revert i
  decide

/-- Everything an operand index check can answer (10_state.md R13). -/
theorem regIndex_cases (r : Byte) :
    (∃ i : Index, r.toNat = i ∧ regIndex r = .ok i) ∨ (r.toNat > 7 ∧ regIndex r = .error .regRange) := by
  by_cases h : r.toNat < 8
  · exact .inl ⟨⟨r.toNat, h⟩, rfl, by simp [regIndex, h]⟩
  · exact .inr ⟨by omega, by simp [regIndex, h]⟩

theorem State.readReg_of_ok {r : Byte} {i : Index} (s : State) (h : regIndex r = .ok i) :
    s.readReg r = .ok (s.reg i) := by simp [State.readReg, h, bind, Except.bind, pure, Except.pure]

theorem State.readReg_of_error {r : Byte} {c : Cause} (s : State) (h : regIndex r = .error c) :
    s.readReg r = .error c := by simp [State.readReg, h, bind, Except.bind]

theorem State.writeReg_of_ok {r : Byte} {i : Index} (s : State) (v : Byte) (h : regIndex r = .ok i) :
    s.writeReg r v = .ok (s.setReg i v) := by simp [State.writeReg, h, bind, Except.bind, pure, Except.pure]

theorem State.writeReg_of_error {r : Byte} {c : Cause} (s : State) (v : Byte) (h : regIndex r = .error c) :
    s.writeReg r v = .error c := by simp [State.writeReg, h, bind, Except.bind]

/-! ### The PC and the end of an instruction -/

/-- Everything `advance(n)` can answer (10_state.md R15 (e)). -/
theorem State.advance_cases (s : State) (n : Nat) :
    (s.pc.toNat + n ≤ 255 ∧ s.advance n = .ok { s with pc := s.pc + BitVec.ofNat 8 n }) ∨
      (s.pc.toNat + n > 255 ∧ s.advance n = .error .pcRange) := by
  by_cases h : s.pc.toNat + n > 255
  · exact .inr ⟨h, by simp [State.advance, h]⟩
  · exact .inl ⟨by omega, by simp [State.advance, h]⟩

@[simp] theorem endFlow_ok (s t : State) : endFlow s (.ok t) = .next t := rfl

@[simp] theorem endFlow_error (s : State) (c : Cause) : endFlow s (.error c) = .next (s.raise c) := rfl

@[simp] theorem endSequential_error (n : Nat) (s : State) (c : Cause) :
    endSequential n s (.error c) = .next (s.raise c) := rfl

/-- Everything the end of an ALU or non-flow instruction can answer when the instruction raised nothing: the next PC, or
`PcRange` with the instruction's effects and PC kept (43_cycle.md R132, R135). -/
theorem endSequential_ok (n : Nat) (s t : State) :
    endSequential n s (.ok t) =
      .next (if t.pc.toNat + n > 255 then t.raise .pcRange else { t with pc := t.pc + BitVec.ofNat 8 n }) := by
  simp only [endSequential, State.advance]
  split <;> rfl

/-! ### One step -/

/-- A running machine does one cycle (43_cycle.md R133). -/
theorem step_of_running (s : State) (h : s.running = true) : step s = cycle s.takeInput.1 s.takeInput.2 := by
  simp [step, h]

/-- A machine that is not running looks at its host port (70_reset_and_hazards.md section 1). -/
theorem step_of_not_running (s : State) (h : s.running = false) : step s = s.hostStep := by simp [step, h]

/-- Drawing an input changes the given inputs and the draw counter, and nothing else. -/
theorem State.takeInput_frame (s : State) :
    { s.takeInput.2 with inputs := s.inputs, drawn := s.drawn } = s := by
  obtain ⟨_, _, _, _, _, _, _, inputs, _, _, _⟩ := s
  cases inputs <;> rfl

/-- Everything the host port can answer (70_reset_and_hazards.md section 1). -/
theorem State.hostStep_cases (s : State) :
    (s.host = [] ∧ s.hostStep = .next s) ∨
    (∃ rest, s.host = .reset :: rest ∧ s.hostStep = .next { s with host := rest }.hostReset) ∨
    (∃ image rest, s.host = .load image :: rest ∧ s.life = .reset ∧
      s.hostStep = .next ({ s with host := rest }.hostLoad image)) ∨
    (∃ rest, s.host = .start :: rest ∧ s.life = .loaded ∧ s.hostStep = .next { s with host := rest }.hostStart) ∨
    (∃ c, s.hostStep = .refused (.hostOutOfOrder c)) := by
  unfold State.hostStep
  split
  · exact .inl ⟨‹_›, rfl⟩
  · exact .inr (.inl ⟨_, ‹_›, rfl⟩)
  · split
    · exact .inr (.inr (.inl ⟨_, _, ‹_›, ‹_›, rfl⟩))
    · exact .inr (.inr (.inr (.inr ⟨_, rfl⟩)))
  · split
    · exact .inr (.inr (.inr (.inl ⟨_, ‹_›, ‹_›, rfl⟩)))
    · exact .inr (.inr (.inr (.inr ⟨_, rfl⟩)))

end Sys2Proof.Machine
end

