-- ==== Sys2Proof/Laws/Stack.lean ====
section
/-! SUPPORT. Sequences of pushes and of pops into registers: where each byte stands and what else they change, for
interrupt entry and the return from one (60_exceptions.md R149, 42_flow.md R116). -/

namespace Sys2Proof.Machine

/-! ### A list of bytes pushed -/

theorem State.foldl_push_sp (vs : List Byte) (s : State) :
    (vs.foldl State.push s).sp = s.sp - BitVec.ofNat 8 vs.length := by
  induction vs generalizing s with
  | nil => simp
  | cons v vs ih =>
    rw [List.foldl_cons, ih, State.sp_push]
    apply BitVec.eq_of_toNat_eq
    simp
    omega

theorem State.foldl_push_reg (vs : List Byte) (s : State) (j : Index) (h : j ≠ Config.spIndex) :
    (vs.foldl State.push s).reg j = s.reg j := by
  induction vs generalizing s with
  | nil => rfl
  | cons v vs ih => rw [List.foldl_cons, ih, State.reg_push, if_neg h]

/-- A cell the pushes do not reach keeps its byte. -/
theorem State.foldl_push_load_other (vs : List Byte) (s : State) (b : Byte)
    (h : ∀ k, k < vs.length → b ≠ s.sp - BitVec.ofNat 8 (k + 1)) : (vs.foldl State.push s).load b = s.load b := by
  induction vs generalizing s with
  | nil => rfl
  | cons v vs ih =>
    rw [List.foldl_cons, ih, State.load_push, if_neg]
    · simpa using h 0 (by simp)
    · intro k hk hb
      refine h (k + 1) (by simpa using hk) ?_
      rw [hb, State.sp_push]
      apply BitVec.eq_of_toNat_eq
      simp
      omega

/-- Byte k of up to 256 pushed bytes stands at the k-th address below the old top of the stack. -/
theorem State.foldl_push_load (vs : List Byte) (s : State) (k : Nat) (hk : k < vs.length) (hl : vs.length ≤ 256) :
    (vs.foldl State.push s).load (s.sp - BitVec.ofNat 8 (k + 1)) = vs[k] := by
  induction vs generalizing s k with
  | nil => simp at hk
  | cons v vs ih =>
    simp only [List.length_cons] at hk hl
    rw [List.foldl_cons]
    cases k with
    | zero =>
      rw [State.foldl_push_load_other]
      · simp
      · intro n hn hb
        rw [State.sp_push] at hb
        have := congrArg BitVec.toNat hb
        simp at this
        omega
    | succ k =>
      have e : s.sp - BitVec.ofNat 8 (k + 1 + 1) = (s.push v).sp - BitVec.ofNat 8 (k + 1) := by
        rw [State.sp_push]
        apply BitVec.eq_of_toNat_eq
        simp
        omega
      rw [e, ih _ k (by omega) (by omega)]
      simp

/-- Pushes change registers and memory only. -/
theorem State.foldl_push_frame (vs : List Byte) (s : State) :
    { vs.foldl State.push s with regs := s.regs, mem := s.mem } = s := by
  induction vs generalizing s with
  | nil => rfl
  | cons v vs ih =>
    have := ih (s.push v)
    rw [List.foldl_cons]
    simpa [State.push, State.setReg, State.store] using
      congrArg (fun t : State => { t with regs := s.regs, mem := s.mem }) this

/-! ### Registers popped one after another -/

theorem State.sp_popReg (s : State) (i : Index) (h : i ≠ Config.spIndex) : (s.popReg i).sp = s.sp + 1 := by
  have h' : ¬ Config.spIndex = i := fun e => h e.symm
  simp only [State.sp, State.reg_popReg, h', if_false, if_true]

theorem State.foldl_popReg_sp (l : List Index) (s : State) (h : Config.spIndex ∉ l) :
    (l.foldl State.popReg s).sp = s.sp + BitVec.ofNat 8 l.length := by
  induction l generalizing s with
  | nil => simp
  | cons i l ih =>
    rw [List.foldl_cons, ih _ (fun hm => h (by simp [hm])), State.sp_popReg _ _ (fun e => h (by simp [e]))]
    apply BitVec.eq_of_toNat_eq
    simp
    omega

theorem State.foldl_popReg_load (l : List Index) (s : State) (b : Byte) : (l.foldl State.popReg s).load b = s.load b := by
  induction l generalizing s with
  | nil => rfl
  | cons i l ih => rw [List.foldl_cons, ih, State.load_popReg]

theorem State.foldl_popReg_reg_other (l : List Index) (s : State) (j : Index) (h : j ∉ l) (hj : j ≠ Config.spIndex) :
    (l.foldl State.popReg s).reg j = s.reg j := by
  induction l generalizing s with
  | nil => rfl
  | cons i l ih =>
    rw [List.foldl_cons, ih _ (fun hm => h (by simp [hm])), State.reg_popReg, if_neg (fun e => h (by simp [e])), if_neg hj]

/-- The k-th register popped takes the k-th byte from the top of the stack. -/
theorem State.foldl_popReg_reg (l : List Index) (s : State) (k : Nat) (hk : k < l.length) (hn : l.Nodup)
    (h : Config.spIndex ∉ l) : (l.foldl State.popReg s).reg l[k] = s.load (s.sp + BitVec.ofNat 8 k) := by
  induction l generalizing s k with
  | nil => simp at hk
  | cons i l ih =>
    have hi : i ≠ Config.spIndex := fun e => h (by simp [e])
    have hl : Config.spIndex ∉ l := fun hm => h (by simp [hm])
    rw [List.nodup_cons] at hn
    rw [List.foldl_cons]
    cases k with
    | zero =>
      have e : (i :: l)[0] = i := rfl
      rw [e, State.foldl_popReg_reg_other _ _ _ hn.1 hi]
      simp
    | succ k =>
      have e : (i :: l)[k + 1] = l[k]'(by simpa using hk) := rfl
      rw [e, ih _ k (by simpa using hk) hn.2 hl, State.load_popReg, State.sp_popReg _ _ hi]
      congr 1
      apply BitVec.eq_of_toNat_eq
      simp
      omega

/-- Popping into registers changes registers only. -/
theorem State.foldl_popReg_frame (l : List Index) (s : State) : { l.foldl State.popReg s with regs := s.regs } = s := by
  induction l generalizing s with
  | nil => rfl
  | cons i l ih =>
    have := ih (s.popReg i)
    rw [List.foldl_cons]
    simpa [State.popReg, State.pop, State.setReg] using congrArg (fun t : State => { t with regs := s.regs }) this

end Sys2Proof.Machine
end

