-- ==== Sys2Proof/Laws/Cycle.lean ====
section
/-! SUPPORT. Steps 0 to 5 of the cycle and the step as a whole, each with everything it can do: the line the dispatch
check enters, what events change, the bytes the fetch sees, the three ways a running machine's step ends. -/

namespace Sys2Proof.Machine

/-! ### Interrupt lines -/

/-- The line the check enters is the lowest whose bit is set (60_exceptions.md R147, R148). -/
theorem lowestLine_eq_some_iff : ∀ (m : Byte) (i : Index),
    lowestLine m = some i ↔ m.getLsbD i = true ∧ ∀ j : Index, j < i → m.getLsbD j = false := by decide

/-- No line is entered exactly when no bit is set. -/
theorem lowestLine_eq_none_iff : ∀ m : Byte, lowestLine m = none ↔ ∀ i : Index, m.getLsbD i = false := by decide

/-- Everything the dispatch check can do (60_exceptions.md R147). -/
theorem State.dispatchCheck_cases (s : State) :
    ((∀ i : Index, (s.im &&& s.is).getLsbD i = false) ∧ s.dispatchCheck = s) ∨
    (∃ i : Index, (s.im &&& s.is).getLsbD i = true ∧ (∀ j : Index, j < i → (s.im &&& s.is).getLsbD j = false) ∧
      s.dispatchCheck = s.interruptEntry i) := by
  unfold State.dispatchCheck
  cases h : lowestLine (s.im &&& s.is) with
  | none => exact .inl ⟨(lowestLine_eq_none_iff _).1 h, rfl⟩
  | some i =>
    obtain ⟨h1, h2⟩ := (lowestLine_eq_some_iff _ _).1 h
    exact .inr ⟨i, h1, h2, rfl⟩

@[simp] theorem State.reg_request (s : State) (i j : Index) :
    (s.request i).reg j = if j = Config.isIndex then s.is ||| BitVec.twoPow 8 i else s.reg j := by
  rw [State.request, State.reg_setReg]

@[simp] theorem State.reg_acknowledge (s : State) (i j : Index) :
    (s.acknowledge i).reg j = if j = Config.isIndex then s.is &&& ~~~ BitVec.twoPow 8 i else s.reg j := by
  rw [State.acknowledge, State.reg_setReg]

/-- A request sets its bit and keeps the others (10_state.md R20). -/
theorem State.is_request (s : State) (i j : Index) :
    (s.request i).is.getLsbD j = (s.is.getLsbD j || decide (j = i)) := by
  rw [State.is, State.reg_request, if_pos rfl, BitVec.getLsbD_or, BitVec.getLsbD_twoPow]
  have h : (i : Nat) = j ↔ j = i := ⟨fun e => Fin.ext e.symm, fun e => e ▸ rfl⟩
  simp [h]

/-- An acknowledge clears its bit and keeps the others (60_exceptions.md R149). -/
theorem State.is_acknowledge (s : State) (i j : Index) :
    (s.acknowledge i).is.getLsbD j = (s.is.getLsbD j && decide (j ≠ i)) := by
  rw [State.is, State.reg_acknowledge, if_pos rfl, BitVec.getLsbD_and, BitVec.getLsbD_not, BitVec.getLsbD_twoPow]
  have h : (i : Nat) = j ↔ j = i := ⟨fun e => Fin.ext e.symm, fun e => e ▸ rfl⟩
  simp [h]

/-- Interrupt entry changes registers, memory and the PC only (60_exceptions.md R149). -/
theorem State.interruptEntry_parts (s : State) (i : Index) :
    { s.interruptEntry i with regs := s.regs, mem := s.mem, pc := s.pc } = s :=
  congrArg (fun t : State => { t with regs := s.regs, mem := s.mem, pc := s.pc })
    (State.foldl_push_frame (s.acknowledge i).context (s.acknowledge i))

/-! ### Events -/

/-- Key events are applied one by one, then the rest of the batch. -/
theorem State.applyEvents_keys (keys : List Byte) (rest : List Event) (s : State) :
    State.applyEvents (keys.map .key ++ rest) s = State.applyEvents rest (keys.foldl State.keyEvent s) := by
  induction keys generalizing s with
  | nil => rfl
  | cons v keys ih => exact ih (s.keyEvent v)

/-- A batch of events changes registers, memory and the running flag only (43_cycle.md R126). -/
theorem State.applyEvents_parts (es : List Event) (s : State) :
    { State.applyEvents es s with regs := s.regs, mem := s.mem, running := s.running } = s := by
  induction es generalizing s with
  | nil => rfl
  | cons e es ih =>
    cases e with
    | key v =>
      exact congrArg (fun t : State => { t with regs := s.regs, mem := s.mem, running := s.running }) (ih (s.keyEvent v))
    | cancel => rfl
    | stop => rfl

/-- A batch of events never starts a machine (43_cycle.md R126). -/
theorem State.applyEvents_running (es : List Event) (s : State) (h : (State.applyEvents es s).running = true) :
    s.running = true := by
  induction es generalizing s with
  | nil => exact h
  | cons e es ih =>
    cases e with
    | key v => exact ih (s.keyEvent v) h
    | cancel => cases h
    | stop => cases h

/-- Events only set pending bits (60_exceptions.md R154). -/
theorem State.applyEvents_is (es : List Event) (s : State) (j : Index) (h : s.is.getLsbD j = true) :
    (State.applyEvents es s).is.getLsbD j = true := by
  induction es generalizing s with
  | nil => exact h
  | cons e es ih =>
    cases e with
    | key v =>
      refine ih (s.keyEvent v) ?_
      rw [State.keyEvent, State.is_request, Bool.or_eq_true]
      exact .inl h
    | cancel => exact h
    | stop => exact h

/-! ### The fields that drawing an input, a batch of events and a tick keep -/

@[simp] theorem State.takeInput_regs (s : State) : s.takeInput.2.regs = s.regs := by
  unfold State.takeInput; split <;> rfl
@[simp] theorem State.takeInput_pc (s : State) : s.takeInput.2.pc = s.pc := by
  unfold State.takeInput; split <;> rfl
@[simp] theorem State.takeInput_fl (s : State) : s.takeInput.2.fl = s.fl := by
  unfold State.takeInput; split <;> rfl
@[simp] theorem State.takeInput_mem (s : State) : s.takeInput.2.mem = s.mem := by
  unfold State.takeInput; split <;> rfl
@[simp] theorem State.takeInput_running (s : State) : s.takeInput.2.running = s.running := by
  unfold State.takeInput; split <;> rfl
@[simp] theorem State.takeInput_fatal (s : State) : s.takeInput.2.fatal = s.fatal := by
  unfold State.takeInput; split <;> rfl
@[simp] theorem State.takeInput_out (s : State) : s.takeInput.2.out = s.out := by
  unfold State.takeInput; split <;> rfl
@[simp] theorem State.takeInput_host (s : State) : s.takeInput.2.host = s.host := by
  unfold State.takeInput; split <;> rfl
@[simp] theorem State.takeInput_life (s : State) : s.takeInput.2.life = s.life := by
  unfold State.takeInput; split <;> rfl

@[simp] theorem State.applyEvents_pc (es : List Event) (s : State) : (State.applyEvents es s).pc = s.pc := by
  have h := congrArg State.pc (State.applyEvents_parts es s)
  exact h
@[simp] theorem State.applyEvents_fl (es : List Event) (s : State) : (State.applyEvents es s).fl = s.fl := by
  have h := congrArg State.fl (State.applyEvents_parts es s)
  exact h
@[simp] theorem State.applyEvents_fatal (es : List Event) (s : State) : (State.applyEvents es s).fatal = s.fatal := by
  have h := congrArg State.fatal (State.applyEvents_parts es s)
  exact h
@[simp] theorem State.applyEvents_out (es : List Event) (s : State) : (State.applyEvents es s).out = s.out := by
  have h := congrArg State.out (State.applyEvents_parts es s)
  exact h
@[simp] theorem State.applyEvents_inputs (es : List Event) (s : State) : (State.applyEvents es s).inputs = s.inputs := by
  have h := congrArg State.inputs (State.applyEvents_parts es s)
  exact h
@[simp] theorem State.applyEvents_drawn (es : List Event) (s : State) : (State.applyEvents es s).drawn = s.drawn := by
  have h := congrArg State.drawn (State.applyEvents_parts es s)
  exact h
@[simp] theorem State.applyEvents_host (es : List Event) (s : State) : (State.applyEvents es s).host = s.host := by
  have h := congrArg State.host (State.applyEvents_parts es s)
  exact h
@[simp] theorem State.applyEvents_life (es : List Event) (s : State) : (State.applyEvents es s).life = s.life := by
  have h := congrArg State.life (State.applyEvents_parts es s)
  exact h

@[simp] theorem State.timerTick_pc (s : State) (b : Bool) : (s.timerTick b).pc = s.pc := by
  unfold State.timerTick; split <;> rfl
@[simp] theorem State.timerTick_fl (s : State) (b : Bool) : (s.timerTick b).fl = s.fl := by
  unfold State.timerTick; split <;> rfl
@[simp] theorem State.timerTick_mem (s : State) (b : Bool) : (s.timerTick b).mem = s.mem := by
  unfold State.timerTick; split <;> rfl
@[simp] theorem State.timerTick_running (s : State) (b : Bool) : (s.timerTick b).running = s.running := by
  unfold State.timerTick; split <;> rfl
@[simp] theorem State.timerTick_fatal (s : State) (b : Bool) : (s.timerTick b).fatal = s.fatal := by
  unfold State.timerTick; split <;> rfl
@[simp] theorem State.timerTick_out (s : State) (b : Bool) : (s.timerTick b).out = s.out := by
  unfold State.timerTick; split <;> rfl
@[simp] theorem State.timerTick_inputs (s : State) (b : Bool) : (s.timerTick b).inputs = s.inputs := by
  unfold State.timerTick; split <;> rfl
@[simp] theorem State.timerTick_drawn (s : State) (b : Bool) : (s.timerTick b).drawn = s.drawn := by
  unfold State.timerTick; split <;> rfl
@[simp] theorem State.timerTick_host (s : State) (b : Bool) : (s.timerTick b).host = s.host := by
  unfold State.timerTick; split <;> rfl
@[simp] theorem State.timerTick_life (s : State) (b : Bool) : (s.timerTick b).life = s.life := by
  unfold State.timerTick; split <;> rfl

/-! ### Fetch -/

/-- The bytes the fetch sees are the cells from the PC upward, as many as there are, at most three. -/
theorem State.codeBytes_eq (s : State) :
    s.codeBytes = if s.pc.toNat ≤ 253 then
        [s.load s.pc, Memory.get s.mem (s.pc.toNat + 1), Memory.get s.mem (s.pc.toNat + 2)]
      else if s.pc.toNat = 254 then [s.load s.pc, Memory.get s.mem 255]
      else [s.load s.pc] := by
  have h255 := s.pc.isLt
  have h0 : ¬ s.pc.toNat > 255 := by omega
  by_cases h : s.pc.toNat ≤ 253
  · have h1 : ¬ s.pc.toNat + 1 > 255 := by omega
    have h2 : ¬ s.pc.toNat + 2 > 255 := by omega
    simp [State.codeBytes, State.memRead, State.load, Except.toOption, h, h0, h1, h2]
  · by_cases h' : s.pc.toNat = 254
    · simp [State.codeBytes, State.memRead, State.load, Except.toOption, h']
    · have h1 : s.pc.toNat + 1 > 255 := by omega
      have h2 : s.pc.toNat + 2 > 255 := by omega
      simp [State.codeBytes, State.memRead, State.load, Except.toOption, h, h', h0, h1, h2]

/-- Everything steps 3 to 7 can do: run the instruction the decoder reads, or end the run (43_cycle.md R129 to R132). -/
theorem fetchAndExec_cases (s : State) :
    (∃ i rest, decode s.codeBytes = .ok (i, rest) ∧ fetchAndExec s = exec i s) ∨
    (∃ e, decode s.codeBytes = .error e ∧ fetchAndExec s = .next (s.raise (causeOf e))) := by
  unfold fetchAndExec State.fetch
  cases h : decode s.codeBytes with
  | ok p => exact .inl ⟨p.1, p.2, rfl, rfl⟩
  | error e => exact .inr ⟨e, rfl, rfl⟩

/-! ### The cycle and the step -/

/-- The dispatch check neither stops nor starts the machine. -/
@[simp] theorem State.dispatchCheck_running (s : State) : s.dispatchCheck.running = s.running := by
  rcases s.dispatchCheck_cases with ⟨_, e⟩ | ⟨i, _, _, e⟩
  · rw [e]
  · rw [e, State.interruptEntry_running]

/-- A given input is the next cycle's (10_state.md R24). -/
theorem State.takeInput_given (s : State) (input : CycleInput) (rest : List CycleInput) (h : s.inputs = input :: rest) :
    s.takeInput = (input, { s with inputs := rest }) := by
  rw [State.takeInput, h]

/-- With no given input left the next cycle's is drawn (43_cycle.md R136). -/
theorem State.takeInput_drawn (s : State) (h : s.inputs = []) :
    s.takeInput = (Config.freeInput s.drawn, { s with drawn := s.drawn + 1 }) := by
  rw [State.takeInput, h]

/-- A running machine's step is the cycle on the input it takes, given or drawn (43_cycle.md R133). -/
theorem step_of_takeInput {s later : State} {input : CycleInput} (hr : s.running = true)
    (h : s.takeInput = (input, later)) : step s = cycle input later := by
  rw [step_of_running s hr, h]

/-- A cycle whose events leave the machine running gets to the fetch, through the dispatch check and the tick. -/
theorem cycle_of_running (input : CycleInput) (s : State) (h : (State.applyEvents input.events s).running = true) :
    cycle input s = fetchAndExec ((State.applyEvents input.events s).dispatchCheck.timerTick input.tick) := by
  have hb : s.beforeFetch input = (State.applyEvents input.events s).dispatchCheck.timerTick input.tick := if_pos h
  have hr : (s.beforeFetch input).running = true := by simp [hb, h]
  rw [cycle, if_pos hr, hb]

/-- A cycle whose events stop the machine ends there (43_cycle.md R126). -/
theorem cycle_of_stopped (input : CycleInput) (s : State) (h : (State.applyEvents input.events s).running = false) :
    cycle input s = .next (State.applyEvents input.events s) := by
  have hb : s.beforeFetch input = State.applyEvents input.events s := if_neg (by simp [h])
  rw [cycle, hb, if_neg (by simp [h])]

/-- Everything a step that answered can have been: a move of the host's port, a cycle that an event ended, or a cycle that
got to the fetch (43_cycle.md R125, R126, R133). -/
theorem step_cases {s t : State} (h : step s = .next t) :
    (s.running = false ∧ s.hostStep = .next t) ∨
    (s.running = true ∧ (s.takeInput.2.beforeFetch s.takeInput.1).running = false ∧
      t = s.takeInput.2.beforeFetch s.takeInput.1) ∨
    (s.running = true ∧ (s.takeInput.2.beforeFetch s.takeInput.1).running = true ∧
      fetchAndExec (s.takeInput.2.beforeFetch s.takeInput.1) = .next t) := by
  cases hr : s.running with
  | false => exact .inl ⟨rfl, step_of_not_running s hr ▸ h⟩
  | true =>
    rw [step_of_running s hr, cycle] at h
    cases hb : (s.takeInput.2.beforeFetch s.takeInput.1).running with
    | false =>
      rw [if_neg (by simp [hb])] at h
      cases h
      exact .inr (.inl ⟨rfl, rfl, rfl⟩)
    | true =>
      rw [if_pos hb] at h
      exact .inr (.inr ⟨rfl, rfl, h⟩)

end Sys2Proof.Machine
end

