-- ==== Sys2Proof/Laws/Exec.lean ====
section
/-! SUPPORT. Step 6 and step 7 taken apart: the effect of every instruction by itself, `exec` as that effect followed by
the end of the instruction, and what an operand access that answered says. -/

namespace Sys2Proof.Machine

/-! ### Sequencing of actions that may raise -/

@[simp] theorem bind_ok {α β : Type} (a : α) (f : α → Except Cause β) : (Except.ok a >>= f) = f a := rfl

@[simp] theorem bind_error {α β : Type} (c : Cause) (f : α → Except Cause β) :
    (Except.error c >>= f) = Except.error c := rfl

@[simp] theorem pure_eq_ok {α : Type} (a : α) : (pure a : Except Cause α) = .ok a := rfl

/-- A sequence that answered: its first action answered, and the rest answered on that. -/
theorem bind_eq_ok {α β : Type} {r : Except Cause α} {f : α → Except Cause β} {b : β} (h : (r >>= f) = .ok b) :
    ∃ a, r = .ok a ∧ f a = .ok b := by
  cases r with
  | ok a => exact ⟨a, rfl, h⟩
  | error c => cases h

/-! ### Operand accesses that answered -/

theorem regIndex_eq_ok {r : Byte} {i : Index} (h : regIndex r = .ok i) : r.toNat = i := by
  rcases regIndex_cases r with ⟨j, hj, e⟩ | ⟨_, e⟩ <;> rw [e] at h <;> cases h
  exact hj

theorem State.readReg_eq_ok {s : State} {r v : Byte} (h : s.readReg r = .ok v) :
    ∃ i : Index, r.toNat = i ∧ v = s.reg i := by
  rcases regIndex_cases r with ⟨i, hi, e⟩ | ⟨_, e⟩
  · rw [s.readReg_of_ok e] at h
    cases h
    exact ⟨i, hi, rfl⟩
  · rw [s.readReg_of_error e] at h
    cases h

theorem State.writeReg_eq_ok {s t : State} {r v : Byte} (h : s.writeReg r v = .ok t) :
    ∃ i : Index, r.toNat = i ∧ t = s.setReg i v := by
  rcases regIndex_cases r with ⟨i, hi, e⟩ | ⟨_, e⟩
  · rw [s.writeReg_of_ok v e] at h
    cases h
    exact ⟨i, hi, rfl⟩
  · rw [s.writeReg_of_error v e] at h
    cases h

theorem State.advance_eq_ok {s t : State} {n : Nat} (h : s.advance n = .ok t) :
    s.pc.toNat + n ≤ 255 ∧ t = { s with pc := s.pc + BitVec.ofNat 8 n } := by
  rcases s.advance_cases n with ⟨h1, e⟩ | ⟨_, e⟩ <;> rw [e] at h <;> cases h
  exact ⟨h1, rfl⟩

/-! ### The effect of an instruction before step 7 -/

/-- The effect of a two-operand ALU instruction (40_alu.md R70). -/
def binaryEffect (f : Byte → Byte → Except Cause Byte) (a b : Byte) (s : State) : Except Cause State := do
  let va ← s.readReg a
  let vb ← s.readReg b
  let v ← f va vb
  s.writeReg a v

/-- The effect of a one-operand ALU instruction (40_alu.md R70). -/
def unaryEffect (f : Byte → Byte) (a : Byte) (s : State) : Except Cause State := do
  let v ← s.readReg a
  s.writeReg a (f v)

/-- The effect of a conditional jump (42_flow.md R114). -/
def jumpEffect (cond : Byte → Bool) (a : Byte) (s : State) : Except Cause State := do
  let target ← s.readReg a
  if cond s.fl then return { s with pc := target } else s.advance 2

/-- Step 6 of each instruction: its effect, or the fatal error it raises. -/
def effect : Instr → State → Except Cause State
  | .nop, s | .nop1 _, s | .nop2 _ _, s => .ok s
  | .hlt, s => .ok { s with running := false }
  | .ret, s => .ok { s.pop.2 with pc := s.pop.1 }
  | .iret, s => .ok s.interruptReturn
  | .push a, s => do
    let v ← s.readReg a
    return s.push v
  | .pop a, s => do
    let i ← regIndex a
    return s.popReg i
  | .prn a, s => do
    let v ← s.readReg a
    return { s with out := s.out ++ [.prn v] }
  | .pra a, s => do
    let v ← s.readReg a
    return { s with out := s.out ++ [.pra v] }
  | .inc a, s => unaryEffect (fun v => v + 1) a s
  | .dec a, s => unaryEffect (fun v => v - 1) a s
  | .not a, s => unaryEffect (fun v => v ^^^ 0xFF) a s
  | .call a, s => do
    let target ← s.readReg a
    let next ← s.advance 2
    return { s.push next.pc with pc := target }
  | .int a, s => do
    let n ← s.readReg a
    let line ← requestedLine n
    let t ← s.advance 2
    return t.request line
  | .jmp a, s => do
    let target ← s.readReg a
    return { s with pc := target }
  | .jeq a, s => jumpEffect condEq a s
  | .jne a, s => jumpEffect condNe a s
  | .jgt a, s => jumpEffect condGt a s
  | .jlt a, s => jumpEffect condLt a s
  | .jle a, s => jumpEffect condLe a s
  | .jge a, s => jumpEffect condGe a s
  | .ldi a imm, s => s.writeReg a imm
  | .ld a b, s => do
    let addr ← s.readReg b
    let v ← s.memRead addr.toNat
    s.writeReg a v
  | .st a b, s => do
    let addr ← s.readReg a
    let v ← s.readReg b
    s.memWrite addr.toNat v
  | .add a b, s => binaryEffect (fun va vb => .ok (va + vb)) a b s
  | .sub a b, s => binaryEffect (fun va vb => .ok (va - vb)) a b s
  | .mul a b, s => binaryEffect (fun va vb => .ok (va * vb)) a b s
  | .div a b, s => binaryEffect (byNonZero (fun va vb => va / vb)) a b s
  | .mod a b, s => binaryEffect (byNonZero (fun va vb => va % vb)) a b s
  | .cmp a b, s => do
    let va ← s.readReg a
    let vb ← s.readReg b
    return { s with fl := compareFlags va vb }
  | .and a b, s => binaryEffect (fun va vb => .ok (va &&& vb)) a b s
  | .or a b, s => binaryEffect (fun va vb => .ok (va ||| vb)) a b s
  | .xor a b, s => binaryEffect (fun va vb => .ok (va ^^^ vb)) a b s
  | .shl a b, s => binaryEffect (fun va vb => .ok (va <<< vb.toNat)) a b s
  | .shr a b, s => binaryEffect (fun va vb => .ok (va >>> vb.toNat)) a b s

/-- Every meaning is its effect followed by the end its sets-PC flag B names: nothing for a flow-control instruction,
`advance` by the instruction's length otherwise (43_cycle.md R132). -/
theorem exec_eq (i : Instr) (s : State) :
    exec i s = if i.fields.b then endFlow s (effect i s) else endSequential i.size s (effect i s) := by
  cases i <;> rfl

/-- Everything an ALU or non-flow instruction that ended can have done. -/
theorem endSequential_cases {n : Nat} {s t : State} {r : Except Cause State} (h : endSequential n s r = .next t) :
    (∃ c, r = .error c ∧ t = s.raise c) ∨
    (∃ u, r = .ok u ∧ u.pc.toNat + n ≤ 255 ∧ t = { u with pc := u.pc + BitVec.ofNat 8 n }) ∨
    (∃ u, r = .ok u ∧ u.pc.toNat + n > 255 ∧ t = u.raise .pcRange) := by
  cases r with
  | error c =>
    cases h
    exact .inl ⟨c, rfl, rfl⟩
  | ok u =>
    rw [endSequential_ok] at h
    split at h <;> cases h
    · exact .inr (.inr ⟨u, rfl, ‹_›, rfl⟩)
    · exact .inr (.inl ⟨u, rfl, by omega, rfl⟩)

/-- Everything a flow-control instruction that ended can have done. -/
theorem endFlow_cases {s t : State} {r : Except Cause State} (h : endFlow s r = .next t) :
    (∃ c, r = .error c ∧ t = s.raise c) ∨ r = .ok t := by
  cases r with
  | error c =>
    cases h
    exact .inl ⟨c, rfl, rfl⟩
  | ok u =>
    cases h
    exact .inr rfl

end Sys2Proof.Machine
end

