-- ==== Sys2Proof/Laws/PerInstr.lean ====
section
/-! SUPPORT. Per-instruction lemmas about the syntax. Family `Length`: an instruction is 1 to 3 bytes long, as many as
its opcode byte announces (30_encoding.md R50, R51: the length is `AA + 1`, AA the top two bits of the opcode byte). -/

namespace Sys2Proof.Laws

/-- The bytes of `i` are one opcode byte and the AA operand bytes that its own top two bits announce. -/
def Length.Statement (i : Instr) : Prop :=
  ∃ ir rest, encode i = ir :: rest ∧ rest.length = ir.toNat / 64 ∧ i.size = (encode i).length ∧ i.size ≤ 3

/-- The top two bits of a joined opcode byte are AA (30_encoding.md R51). -/
theorem join_count : ∀ (aa : BitVec 2) (b c : Bool) (d : Nibble), (join ⟨aa, b, c, d⟩).toNat / 64 = aa.toNat := by
  decide

/-- The family's statement from the instruction's fields and operand bytes. -/
theorem Length.of_fields {i : Instr} {f : Fields} (hf : i.fields = f) (hl : i.operands.length = f.aa.toNat)
    (h2 : f.aa.toNat ≤ 2) : Length.Statement i := by
  subst hf
  refine ⟨_, _, rfl, ?_, ?_, ?_⟩
  · rw [hl, join_count]
  · simp [encode, Instr.size, hl]
  · exact Nat.succ_le_succ h2

theorem Length.nop : Length.Statement .nop := Length.of_fields rfl rfl (Nat.le_of_ble_eq_true rfl)

theorem Length.hlt : Length.Statement .hlt := Length.of_fields rfl rfl (Nat.le_of_ble_eq_true rfl)

theorem Length.ret : Length.Statement .ret := Length.of_fields rfl rfl (Nat.le_of_ble_eq_true rfl)

theorem Length.iret : Length.Statement .iret := Length.of_fields rfl rfl (Nat.le_of_ble_eq_true rfl)

theorem Length.nop1 (x : Byte) : Length.Statement (.nop1 x) := Length.of_fields rfl rfl (Nat.le_of_ble_eq_true rfl)

theorem Length.push (a : Byte) : Length.Statement (.push a) := Length.of_fields rfl rfl (Nat.le_of_ble_eq_true rfl)

theorem Length.pop (a : Byte) : Length.Statement (.pop a) := Length.of_fields rfl rfl (Nat.le_of_ble_eq_true rfl)

theorem Length.prn (a : Byte) : Length.Statement (.prn a) := Length.of_fields rfl rfl (Nat.le_of_ble_eq_true rfl)

theorem Length.pra (a : Byte) : Length.Statement (.pra a) := Length.of_fields rfl rfl (Nat.le_of_ble_eq_true rfl)

theorem Length.inc (a : Byte) : Length.Statement (.inc a) := Length.of_fields rfl rfl (Nat.le_of_ble_eq_true rfl)

theorem Length.dec (a : Byte) : Length.Statement (.dec a) := Length.of_fields rfl rfl (Nat.le_of_ble_eq_true rfl)

theorem Length.not (a : Byte) : Length.Statement (.not a) := Length.of_fields rfl rfl (Nat.le_of_ble_eq_true rfl)

theorem Length.call (a : Byte) : Length.Statement (.call a) := Length.of_fields rfl rfl (Nat.le_of_ble_eq_true rfl)

theorem Length.int (a : Byte) : Length.Statement (.int a) := Length.of_fields rfl rfl (Nat.le_of_ble_eq_true rfl)

theorem Length.jmp (a : Byte) : Length.Statement (.jmp a) := Length.of_fields rfl rfl (Nat.le_of_ble_eq_true rfl)

theorem Length.jeq (a : Byte) : Length.Statement (.jeq a) := Length.of_fields rfl rfl (Nat.le_of_ble_eq_true rfl)

theorem Length.jne (a : Byte) : Length.Statement (.jne a) := Length.of_fields rfl rfl (Nat.le_of_ble_eq_true rfl)

theorem Length.jgt (a : Byte) : Length.Statement (.jgt a) := Length.of_fields rfl rfl (Nat.le_of_ble_eq_true rfl)

theorem Length.jlt (a : Byte) : Length.Statement (.jlt a) := Length.of_fields rfl rfl (Nat.le_of_ble_eq_true rfl)

theorem Length.jle (a : Byte) : Length.Statement (.jle a) := Length.of_fields rfl rfl (Nat.le_of_ble_eq_true rfl)

theorem Length.jge (a : Byte) : Length.Statement (.jge a) := Length.of_fields rfl rfl (Nat.le_of_ble_eq_true rfl)

theorem Length.nop2 (x y : Byte) : Length.Statement (.nop2 x y) := Length.of_fields rfl rfl (Nat.le_of_ble_eq_true rfl)

theorem Length.ldi (a imm : Byte) : Length.Statement (.ldi a imm) := Length.of_fields rfl rfl (Nat.le_of_ble_eq_true rfl)

theorem Length.ld (a b : Byte) : Length.Statement (.ld a b) := Length.of_fields rfl rfl (Nat.le_of_ble_eq_true rfl)

theorem Length.st (a b : Byte) : Length.Statement (.st a b) := Length.of_fields rfl rfl (Nat.le_of_ble_eq_true rfl)

theorem Length.add (a b : Byte) : Length.Statement (.add a b) := Length.of_fields rfl rfl (Nat.le_of_ble_eq_true rfl)

theorem Length.sub (a b : Byte) : Length.Statement (.sub a b) := Length.of_fields rfl rfl (Nat.le_of_ble_eq_true rfl)

theorem Length.mul (a b : Byte) : Length.Statement (.mul a b) := Length.of_fields rfl rfl (Nat.le_of_ble_eq_true rfl)

theorem Length.div (a b : Byte) : Length.Statement (.div a b) := Length.of_fields rfl rfl (Nat.le_of_ble_eq_true rfl)

theorem Length.mod (a b : Byte) : Length.Statement (.mod a b) := Length.of_fields rfl rfl (Nat.le_of_ble_eq_true rfl)

theorem Length.cmp (a b : Byte) : Length.Statement (.cmp a b) := Length.of_fields rfl rfl (Nat.le_of_ble_eq_true rfl)

theorem Length.and (a b : Byte) : Length.Statement (.and a b) := Length.of_fields rfl rfl (Nat.le_of_ble_eq_true rfl)

theorem Length.or (a b : Byte) : Length.Statement (.or a b) := Length.of_fields rfl rfl (Nat.le_of_ble_eq_true rfl)

theorem Length.xor (a b : Byte) : Length.Statement (.xor a b) := Length.of_fields rfl rfl (Nat.le_of_ble_eq_true rfl)

theorem Length.shl (a b : Byte) : Length.Statement (.shl a b) := Length.of_fields rfl rfl (Nat.le_of_ble_eq_true rfl)

theorem Length.shr (a b : Byte) : Length.Statement (.shr a b) := Length.of_fields rfl rfl (Nat.le_of_ble_eq_true rfl)

end Sys2Proof.Laws
end

