-- ==== Sys2Proof/Tests/Slice0.lean ====
section
/-! SUPPORT. Tests of the model against the spec: encodings written out bit by bit from 30_encoding.md, single cycles from
the vectors V1 to V165 of 95_test_vectors.md, and a witness for the hypotheses of every statement of Obligations.lean. -/

namespace Sys2Proof.Tests

open Sys2Proof.Machine Sys2Proof.Claims

/-! ### Helpers -/

/-- The base state of 95_test_vectors.md part 2 with bytes placed at the PC: running, one quiet input. -/
def base (pc : Byte) (bytes : List Byte) : State :=
  { State.reset with
    running := true
    life := .started
    pc := pc
    mem := Memory.putAll [] pc.toNat bytes
    inputs := [.quiet] }

/-- The state with some registers set. -/
def withRegs (s : State) (regs : List (Index × Byte)) : State := regs.foldl (fun s c => s.setReg c.1 c.2) s

/-- The state with some cells set. -/
def withCells (s : State) (cells : List (Byte × Byte)) : State := cells.foldl (fun s c => s.store c.1 c.2) s

/-- The state with a given input for the next cycle. -/
def withInput (s : State) (events : List Event) (tick : Bool) : State := { s with inputs := [⟨events, tick⟩] }

/-- The next state of an outcome, if it is one. -/
def nextOf (o : Host.Outcome State Fault Refusal) : Option State :=
  match o with
  | .next t => some t
  | .fault _ => none
  | .refused _ => none

/-- The state after one step, if there is one. -/
def after (s : State) : Option State := nextOf (step s)

/-- Register i and the PC after one step. -/
def regPc (s : State) (i : Index) : Option (Byte × Byte) := (after s).map (fun t => (t.reg i, t.pc))

/-- FL and the PC after one step. -/
def flPc (s : State) : Option (Byte × Byte) := (after s).map (fun t => (t.fl, t.pc))

/-- A cell and the PC after one step. -/
def cellPc (s : State) (a : Byte) : Option (Byte × Byte) := (after s).map (fun t => (t.load a, t.pc))

/-- The running flag, the fatal status and the PC after one step. -/
def status (s : State) : Option (Bool × Option Cause × Byte) := (after s).map (fun t => (t.running, t.fatal, t.pc))

/-! ### Well-formedness (30_encoding.md R54) -/

theorem test_illformed_one_operand : (Instr.push 8).wellFormed = false := by decide
theorem test_illformed_first_operand : (Instr.add 9 0).wellFormed = false := by decide
theorem test_illformed_second_operand : (Instr.add 0 8).wellFormed = false := by decide
theorem test_illformed_load_immediate : (Instr.ldi 8 1).wellFormed = false := by decide
theorem test_wellformed_ignored_bytes : (Instr.nop2 0xFF 0xFF).wellFormed = true := by decide
theorem test_wellformed_immediate : (Instr.ldi 7 0xFF).wellFormed = true := by decide

/-! ### Every constructor's encoding, as `AA B C DDDD` and operand bytes (30_encoding.md R51, R55, R56) -/

theorem test_decode_nop : decode [0b00000000] = .ok (.nop, []) := by decide
theorem test_decode_hlt : decode [0b00000001] = .ok (.hlt, []) := by decide
theorem test_decode_ret : decode [0b00100001] = .ok (.ret, []) := by decide
theorem test_decode_iret : decode [0b00100011] = .ok (.iret, []) := by decide
theorem test_decode_nop1 : decode [0b01000000, 0x03] = .ok (.nop1 3, []) := by decide
theorem test_decode_push : decode [0b01000101, 0x03] = .ok (.push 3, []) := by decide
theorem test_decode_pop : decode [0b01000110, 0x03] = .ok (.pop 3, []) := by decide
theorem test_decode_prn : decode [0b01000111, 0x03] = .ok (.prn 3, []) := by decide
theorem test_decode_pra : decode [0b01001000, 0x03] = .ok (.pra 3, []) := by decide
theorem test_decode_inc : decode [0b01010101, 0x03] = .ok (.inc 3, []) := by decide
theorem test_decode_dec : decode [0b01010110, 0x03] = .ok (.dec 3, []) := by decide
theorem test_decode_not : decode [0b01011001, 0x03] = .ok (.not 3, []) := by decide
theorem test_decode_call : decode [0b01100000, 0x03] = .ok (.call 3, []) := by decide
theorem test_decode_int : decode [0b01100010, 0x03] = .ok (.int 3, []) := by decide
theorem test_decode_jmp : decode [0b01100100, 0x03] = .ok (.jmp 3, []) := by decide
theorem test_decode_jeq : decode [0b01100101, 0x03] = .ok (.jeq 3, []) := by decide
theorem test_decode_jne : decode [0b01100110, 0x03] = .ok (.jne 3, []) := by decide
theorem test_decode_jgt : decode [0b01100111, 0x03] = .ok (.jgt 3, []) := by decide
theorem test_decode_jlt : decode [0b01101000, 0x03] = .ok (.jlt 3, []) := by decide
theorem test_decode_jle : decode [0b01101001, 0x03] = .ok (.jle 3, []) := by decide
theorem test_decode_jge : decode [0b01101010, 0x03] = .ok (.jge 3, []) := by decide
theorem test_decode_nop2 : decode [0b10000000, 0x02, 0x05] = .ok (.nop2 2 5, []) := by decide
theorem test_decode_ldi : decode [0b10000010, 0x02, 0x05] = .ok (.ldi 2 5, []) := by decide
theorem test_decode_ld : decode [0b10000011, 0x02, 0x05] = .ok (.ld 2 5, []) := by decide
theorem test_decode_st : decode [0b10000100, 0x02, 0x05] = .ok (.st 2 5, []) := by decide
theorem test_decode_add : decode [0b10010000, 0x02, 0x05] = .ok (.add 2 5, []) := by decide
theorem test_decode_sub : decode [0b10010001, 0x02, 0x05] = .ok (.sub 2 5, []) := by decide
theorem test_decode_mul : decode [0b10010010, 0x02, 0x05] = .ok (.mul 2 5, []) := by decide
theorem test_decode_div : decode [0b10010011, 0x02, 0x05] = .ok (.div 2 5, []) := by decide
theorem test_decode_mod : decode [0b10010100, 0x02, 0x05] = .ok (.mod 2 5, []) := by decide
theorem test_decode_cmp : decode [0b10010111, 0x02, 0x05] = .ok (.cmp 2 5, []) := by decide
theorem test_decode_and : decode [0b10011000, 0x02, 0x05] = .ok (.and 2 5, []) := by decide
theorem test_decode_or : decode [0b10011010, 0x02, 0x05] = .ok (.or 2 5, []) := by decide
theorem test_decode_xor : decode [0b10011011, 0x02, 0x05] = .ok (.xor 2 5, []) := by decide
theorem test_decode_shl : decode [0b10011100, 0x02, 0x05] = .ok (.shl 2 5, []) := by decide
theorem test_decode_shr : decode [0b10011101, 0x02, 0x05] = .ok (.shr 2 5, []) := by decide

/-- Bits 23..16 are the third byte, 15..8 the second, 7..0 the opcode byte (opcode_table.json). -/
theorem test_table_word : decodeTableWord 24 0x050290 = some (.add 2 5) := by decide

/-- The operand bits above `nbits` are 0. -/
theorem test_table_word_short : decodeTableWord 8 0x90 = some (.add 0 0) := by decide

/-! ### Bytes that are no instruction (30_encoding.md R57 to R61; V129, V131, V134, V141, V144) -/

theorem test_three_operands : decode [0xC0, 0, 0] = .error .operandCount3 := by decide
theorem test_both_flags : decode [0x30, 0, 0] = .error .bothFlags := by decide
theorem test_unassigned : decode [0x9E, 0, 0] = .error .unassigned := by decide
theorem test_count_mismatch : decode [0x10, 0, 0] = .error .countMismatch := by decide
theorem test_listing_add : decode [0xA0, 0, 0] = .error .countMismatch := by decide

/-- The other flag layout is not the one in force: there 0xA0 would be ADD (93_implementation_defined.md section 3). -/
theorem test_flag_layouts : (splitAs .swapped 0xA0).c = true ∧ (split 0xA0).c = false := by decide

/-! ### The ALU (V1 to V50) -/

/-- V2. -/
theorem test_add_wraps : regPc (withRegs (base 0x10 [0x90, 0x00, 0x01]) [(0, 0xC8), (1, 0x64)]) 0 = some (0x2C, 0x13) := by decide

/-- V3. -/
theorem test_add_same_register : regPc (withRegs (base 0x10 [0x90, 0x02, 0x02]) [(2, 0x81)]) 2 = some (0x02, 0x13) := by decide

/-- V7. -/
theorem test_sub_borrows : regPc (withRegs (base 0x10 [0x91, 0x00, 0x01]) [(0, 0x03), (1, 0x05)]) 0 = some (0xFE, 0x13) := by decide

/-- V10. -/
theorem test_mul_high_byte_lost : regPc (withRegs (base 0x10 [0x92, 0x00, 0x01]) [(0, 0x10), (1, 0x10)]) 0 = some (0x00, 0x13) := by decide

/-- V9. -/
theorem test_mul : regPc (withRegs (base 0x10 [0x92, 0x00, 0x01]) [(0, 0x08), (1, 0x09)]) 0 = some (0x48, 0x13) := by decide

/-- V13. -/
theorem test_div : regPc (withRegs (base 0x10 [0x93, 0x00, 0x01]) [(0, 0x11), (1, 0x05)]) 0 = some (0x03, 0x13) := by decide

/-- V16. -/
theorem test_div_by_zero : status (withRegs (base 0x10 [0x93, 0x00, 0x01]) [(0, 0x11)]) = some (false, some .divZero, 0x10) := by decide

/-- V19. -/
theorem test_mod : regPc (withRegs (base 0x10 [0x94, 0x00, 0x01]) [(0, 0x11), (1, 0x05)]) 0 = some (0x02, 0x13) := by decide

/-- V21. -/
theorem test_mod_by_zero : status (withRegs (base 0x10 [0x94, 0x00, 0x01]) [(0, 0x11)]) = some (false, some .divZero, 0x10) := by decide

/-- V24. -/
theorem test_inc_wraps : regPc (withRegs (base 0x10 [0x55, 0x02]) [(2, 0xFF)]) 2 = some (0x00, 0x12) := by decide

/-- V25. -/
theorem test_inc_stack_pointer : regPc (withRegs (base 0x10 [0x55, 0x07]) []) 7 = some (0xF5, 0x12) := by decide

/-- V27. -/
theorem test_dec_wraps : regPc (withRegs (base 0x10 [0x56, 0x02]) [(2, 0x00)]) 2 = some (0xFF, 0x12) := by decide

/-- V32. -/
theorem test_cmp_unsigned : flPc (withRegs (base 0x10 [0x97, 0x00, 0x01]) [(0, 0x80), (1, 0x7F)]) = some (0x02, 0x13) := by decide

/-- V34. -/
theorem test_cmp_clears_reserved_bits : flPc { withRegs (base 0x10 [0x97, 0x04, 0x04]) [(4, 0x03)] with fl := 0xFE } = some (0x01, 0x13) := by decide

/-- V35. -/
theorem test_and : regPc (withRegs (base 0x10 [0x98, 0x00, 0x01]) [(0, 0xCC), (1, 0xAA)]) 0 = some (0x88, 0x13) := by decide

/-- V36. -/
theorem test_not : regPc (withRegs (base 0x10 [0x59, 0x03]) [(3, 0x0F)]) 3 = some (0xF0, 0x12) := by decide

/-- V38. -/
theorem test_or : regPc (withRegs (base 0x10 [0x9A, 0x00, 0x01]) [(0, 0xCC), (1, 0xAA)]) 0 = some (0xEE, 0x13) := by decide

/-- V39. -/
theorem test_xor : regPc (withRegs (base 0x10 [0x9B, 0x00, 0x01]) [(0, 0xCC), (1, 0xAA)]) 0 = some (0x66, 0x13) := by decide

/-- V41. -/
theorem test_shl : regPc (withRegs (base 0x10 [0x9C, 0x00, 0x01]) [(0, 0x93), (1, 0x02)]) 0 = some (0x4C, 0x13) := by decide

/-- V45. -/
theorem test_shl_full_amount : regPc (withRegs (base 0x10 [0x9C, 0x00, 0x01]) [(0, 0x93), (1, 0xFF)]) 0 = some (0x00, 0x13) := by decide

/-- V47. -/
theorem test_shr : regPc (withRegs (base 0x10 [0x9D, 0x00, 0x01]) [(0, 0x93), (1, 0x02)]) 0 = some (0x24, 0x13) := by decide

/-- V49. -/
theorem test_shr_by_eight : regPc (withRegs (base 0x10 [0x9D, 0x00, 0x01]) [(0, 0x93), (1, 0x08)]) 0 = some (0x00, 0x13) := by decide

/-! ### Non-flow (V51 to V81) -/

/-- V51. -/
theorem test_nop : status (base 0x10 [0x00]) = some (true, none, 0x11) := by decide

/-- V54. -/
theorem test_nop_runs_off_the_end : status (base 0xFF [0x00]) = some (false, some .pcRange, 0xFF) := by decide

/-- V52. -/
theorem test_nop1 : status (base 0x10 [0x40, 0xFF]) = some (true, none, 0x12) := by decide

/-- V53. -/
theorem test_nop2 : status (base 0x10 [0x80, 0x12, 0x34]) = some (true, none, 0x13) := by decide

/-- V55. -/
theorem test_hlt : status (base 0x10 [0x01]) = some (false, none, 0x11) := by decide

/-- V56. -/
theorem test_hlt_at_the_end : status (base 0xFF [0x01]) = some (false, some .pcRange, 0xFF) := by decide

/-- V58. -/
theorem test_ldi : regPc (withRegs (base 0x10 [0x82, 0x04, 0xFF]) []) 4 = some (0xFF, 0x13) := by decide

/-- V61. -/
theorem test_ldi_operand_beyond_memory : status (base 0xFE [0x82, 0x00]) = some (false, some .memRange, 0xFE) := by decide

/-- V62. -/
theorem test_ld : regPc (withCells (withRegs (base 0x10 [0x83, 0x00, 0x01]) [(1, 0x20)]) [(0x20, 0x7B)]) 0 = some (0x7B, 0x13) := by decide

/-- V64. -/
theorem test_ld_own_code : regPc (withRegs (base 0x10 [0x83, 0x00, 0x01]) [(1, 0x10)]) 0 = some (0x83, 0x13) := by decide

/-- V66. -/
theorem test_st : cellPc (withRegs (base 0x10 [0x84, 0x00, 0x01]) [(0, 0xF8), (1, 0x30)]) 0xF8 = some (0x30, 0x13) := by decide

/-- V70. -/
theorem test_push_stack_pointer : cellPc (base 0x10 [0x45, 0x07]) 0xF3 = some (0xF4, 0x12) := by decide

/-- V71. -/
theorem test_push_wraps : regPc (withRegs (base 0x10 [0x45, 0x00]) [(0, 0x2A), (7, 0x00)]) 7 = some (0xFF, 0x12) := by decide

/-- V73. -/
theorem test_pop : regPc (withCells (withRegs (base 0x10 [0x46, 0x01]) [(7, 0xF3)]) [(0xF3, 0x2A)]) 1 = some (0x2A, 0x12) := by decide

/-- V74. -/
theorem test_pop_stack_pointer : regPc (withCells (withRegs (base 0x10 [0x46, 0x07]) [(7, 0xF3)]) [(0xF3, 0x2A)]) 7 = some (0x2A, 0x12) := by decide

/-- V78. -/
theorem test_prn : (after (withRegs (base 0x10 [0x47, 0x00]) [(0, 0xFF)])).map State.out = some [.prn 255] := by decide

/-- V81. -/
theorem test_pra_bad_index : status (base 0x10 [0x48, 0x09]) = some (false, some .regRange, 0x10) := by decide

/-- V80. -/
theorem test_pra : (after (withRegs (base 0x10 [0x48, 0x00]) [(0, 0x48)])).map State.out = some [.pra 72] := by decide

/-! ### Flow control (V82 to V128) -/

/-- V82. -/
theorem test_call_pushes_return_address : cellPc (withRegs (base 0x10 [0x60, 0x01]) [(1, 0x40)]) 0xF3 = some (0x12, 0x40) := by decide

/-- V83. -/
theorem test_call_old_stack_pointer : regPc (base 0x10 [0x60, 0x07]) 7 = some (0xF3, 0xF4) := by decide

/-- V87. -/
theorem test_ret_wraps : regPc (withCells (withRegs (base 0x10 [0x21]) [(7, 0xFF)]) [(0xFF, 0x33)]) 7 = some (0x00, 0x33) := by decide

/-- V88. -/
theorem test_jmp : status (withRegs (base 0x10 [0x64, 0x02]) [(2, 0x20)]) = some (true, none, 0x20) := by decide

/-- V115. -/
theorem test_jeq_taken : flPc { withRegs (base 0x10 [0x65, 0x02]) [(2, 0x30)] with fl := 0xF9 } = some (0xF9, 0x30) := by decide

/-- V116. -/
theorem test_jne_taken : flPc { withRegs (base 0x10 [0x66, 0x02]) [(2, 0x30)] with fl := 0xF8 } = some (0xF8, 0x30) := by decide

/-- V96. -/
theorem test_jne_not_taken : flPc { withRegs (base 0x10 [0x66, 0x02]) [(2, 0x30)] with fl := 0x01 } = some (0x01, 0x12) := by decide

/-- V101. -/
theorem test_jgt_taken : flPc { withRegs (base 0x10 [0x67, 0x02]) [(2, 0x30)] with fl := 0x02 } = some (0x02, 0x30) := by decide

/-- V100. -/
theorem test_jgt_not_taken : flPc { withRegs (base 0x10 [0x67, 0x02]) [(2, 0x30)] with fl := 0x01 } = some (0x01, 0x12) := by decide

/-- V104. -/
theorem test_jge_taken : flPc { withRegs (base 0x10 [0x6A, 0x02]) [(2, 0x30)] with fl := 0x01 } = some (0x01, 0x30) := by decide

/-- V106. -/
theorem test_jge_not_taken : flPc { withRegs (base 0x10 [0x6A, 0x02]) [(2, 0x30)] with fl := 0x04 } = some (0x04, 0x12) := by decide

/-- V110. -/
theorem test_jlt_taken : flPc { withRegs (base 0x10 [0x68, 0x02]) [(2, 0x30)] with fl := 0x04 } = some (0x04, 0x30) := by decide

/-- V109. -/
theorem test_jlt_not_taken : flPc { withRegs (base 0x10 [0x68, 0x02]) [(2, 0x30)] with fl := 0x02 } = some (0x02, 0x12) := by decide

/-- V112. -/
theorem test_jle_taken : flPc { withRegs (base 0x10 [0x69, 0x02]) [(2, 0x30)] with fl := 0x01 } = some (0x01, 0x30) := by decide

/-- V113. -/
theorem test_jle_not_taken : flPc { withRegs (base 0x10 [0x69, 0x02]) [(2, 0x30)] with fl := 0x02 } = some (0x02, 0x12) := by decide

/-- V117. -/
theorem test_jump_bad_index_not_taken : status { base 0x10 [0x65, 0x08] with fl := 0x04 } = some (false, some .regRange, 0x10) := by decide

/-- V122. -/
theorem test_int_line_8 : regPc (withRegs (base 0x10 [0x62, 0x00]) [(0, 0x08), (5, 0x00)]) 6 = some (0x80, 0x12) := by decide

/-- V124. -/
theorem test_int_line_9 : status (withRegs (base 0x10 [0x62, 0x00]) [(0, 0x09), (5, 0x00)]) = some (false, some .intLine, 0x10) := by decide

/-- A handler's end: the frame of 60_exceptions.md R149's example with FL saved as 0xFF (V128). -/
def frameAtHandlerEnd : State :=
  withCells (withRegs (base 0x44 [0x23]) [(5, 0x00), (7, 0xEB)])
    [(0xEC, 0x03), (0xED, 0x05), (0xEE, 0x04), (0xEF, 0x03), (0xF0, 0x02), (0xF1, 0x01), (0xF2, 0xFF), (0xF3, 0x0A)]

/-- V128. -/
theorem test_iret_registers : (after frameAtHandlerEnd).map State.regs = some #v[0x01, 0x02, 0x03, 0x04, 0x05, 0x03, 0x00, 0xF4] := by decide

/-- V128. -/
theorem test_iret_flags_unmasked : flPc frameAtHandlerEnd = some (0xFF, 0x0A) := by decide

/-! ### Fetch, interrupts, timer, events (V152 to V165) -/

/-- V152. -/
theorem test_operand_fetch_faults_first : status (base 0xFE [0x89, 0x00]) = some (false, some .memRange, 0xFE) := by decide

/-- V153. -/
theorem test_decode_faults_before_operand_fetch : status (base 0xFF [0xC0]) = some (false, some .decode, 0xFF) := by decide

/-- V155. -/
theorem test_lowest_line_wins : cellPc (withCells (withRegs (base 0x10 [0x00]) [(5, 0xFF), (6, 0x07)]) [(0xF8, 0x50), (0xF9, 0x60), (0xFA, 0x70)]) 0xEB = some (0x06, 0x51) := by decide

/-- V156. -/
theorem test_masked_line_waits : regPc (withCells (withRegs (base 0x10 [0x00]) [(5, 0x01), (6, 0x02)]) [(0xF9, 0x60)]) 6 = some (0x02, 0x11) := by decide

/-- V158. -/
theorem test_tick_recorded_after_the_check : regPc (withInput (base 0x10 [0x00]) [] true) 6 = some (0x01, 0x11) := by decide

/-- V161. -/
theorem test_key_dispatched_in_its_cycle : cellPc (withInput (withCells (withRegs (base 0x10 [0x00]) [(5, 0x02)]) [(0xF9, 0x60)]) [.key 0x41] false) 0xF4 = some (0x41, 0x61) := by decide

/-- V164. -/
theorem test_stop_discards_the_rest : cellPc (withInput (base 0x10 [0x82, 0x00, 0x01]) [.key 0x41, .stop, .key 0x42] false) 0xF4 = some (0x41, 0x10) := by decide

/-- V163. -/
theorem test_cancel_is_no_fault : status (withInput (base 0x10 [0x82, 0x00, 0x01]) [.cancel] false) = some (false, none, 0x10) := by decide

/-- V165. -/
theorem test_entry_wraps : cellPc (withCells (withRegs (base 0x10 [0x00]) [(5, 0x04), (6, 0x04), (7, 0x04)]) [(0xFA, 0x60)]) 0x03 = some (0x10, 0x61) := by decide

/-! ### The host's port (70_reset_and_hazards.md R170 to R172) -/

/-- A host that resets, loads and starts. -/
def hostSession (image : List Byte) : State := { State.reset with host := [.reset, .load image, .start] }

/-- The state after n steps. -/
def runN (n : Nat) (s : State) : Option State := nextOf (Host.Core.run core n s)

/-- R171, R172: the image from address 0, then the run begins at PC 0. -/
theorem test_load_and_start :
    (runN 3 (hostSession [0x82, 0x00, 0x08])).map (fun t => (t.load 0, t.load 2, t.pc, t.running)) =
      some (0x82, 0x08, 0x00, true) := by decide

/-- U19: a start with nothing loaded is no move of the model. -/
theorem test_start_before_load :
    ∃ c, step { State.reset with host := [.start] } = .refused (.hostOutOfOrder c) := ⟨_, rfl⟩

/-- The first step after reset runs the placed word: LDI R3,0x2A. -/
theorem test_fetch_word : (after (State.reset.withFetchWord 24 0x2A0382)).map (fun t => t.reg 3) = some 0x2A := by decide

/-- A placed word runs also where lines are pending and enabled and the PC is at the end. -/
theorem test_fetch_word_busy :
    regPc ((withRegs (base 0xFE []) [(5, 0xFF), (6, 0xFF)]).withFetchWord 24 0x2A0382) 3 = some (0x2A, 0x03) := by decide

/-! ### Witnesses: states and operands that meet the hypotheses of each statement, clause by clause -/

/-- A state in which an instruction of up to three bytes fits below the end of memory; R1 = 9, R2 = 0. -/
def ample : State := withRegs (base 0xFA []) [(0, 0x30), (1, 0x09), (3, 0x01), (4, 0x08)]

/-- The same at a given address. -/
def ampleAt (pc : Byte) : State := { ample with pc := pc }

/-- The same with a fatal status. -/
def dead : State := ample.raise .divZero

/-- DecodedBytesAreTheEncoding. -/
theorem witness_decoded_bytes : decode [0x90, 0x00, 0x01, 0x77] = .ok (.add 0 1, [0x77]) := by decide

/-- OnlyMappedOpcodesDecode: both sides of the equivalence. -/
theorem witness_opcode_map : (0x9D : Byte) ∈ opcodeBytes ∧ (0x9E : Byte) ∉ opcodeBytes := by decide

/-- MemoryAccessIsBoundsChecked: the addresses where the two clauses meet. -/
theorem witness_memory_bounds :
    ample.memRead 255 = .ok (Memory.get ample.mem 255) ∧ ample.memRead 256 = .error .memRange := by decide

/-- RegisterAccessIsBoundsChecked: the index bytes where the two clauses meet. -/
theorem witness_register_bounds : ample.readReg 7 = .ok 0xF4 ∧ ample.readReg 8 = .error .regRange := by decide

/-- StackPrimitives, third clause: a balanced sequence that is no run of pushes before a run of pops. -/
theorem witness_balanced_stack :
    [StackOp.push 1, .pop, .pop, .push 2].countP StackOp.isPush =
      [StackOp.push 1, .pop, .pop, .push 2].countP (fun o => !o.isPush) := by decide

/-- StackPrimitives, last clause: an instruction that does not write R7. -/
theorem witness_stack_primitives : 7 ∉ writtenRegs (.add 0 1) ∧ ∃ t, exec (.add 0 1) ample = .next t :=
  ⟨by decide, _, rfl⟩

/-- PushThenPopRestores, at the last address it holds for. -/
theorem witness_push_pop : (ampleAt 0xFB).pc.toNat + 4 ≤ 255 := by decide

/-- `Sequential` for 1, 2 and 3 bytes, at the last address of its first clause and the first of its second. It stands in
the statements of the results of ADD to SHR, CMP, the no-ops, HLT, LDI, LD, ST, PUSH, POP, PRN and PRA. -/
theorem witness_sequential :
    (ampleAt 0xFE).pc.toNat + 1 ≤ 255 ∧ (ampleAt 0xFF).pc.toNat + 1 > 255 ∧
    (ampleAt 0xFD).pc.toNat + 2 ≤ 255 ∧ (ampleAt 0xFE).pc.toNat + 2 > 255 ∧
    (ampleAt 0xFC).pc.toNat + 3 ≤ 255 ∧ (ampleAt 0xFD).pc.toNat + 3 > 255 := by decide

/-- DivModResults: a divisor and the zero divisor. -/
theorem witness_div_mod : x ample 1 ≠ 0 ∧ x ample 2 = 0 := by decide

/-- BadRegisterIndexIsFatal. -/
theorem witness_bad_register : (Instr.add 0 8).wellFormed = false ∧ (Instr.jeq 8).wellFormed = false := by decide

/-- CallResult, CallThenReturnResumes: the last address of the first clause and the first of the second. -/
theorem witness_call : (ampleAt 0xFD).pc.toNat + 2 ≤ 255 ∧ (ampleAt 0xFE).pc.toNat + 2 > 255 := by decide

/-- CallThenReturnResumes: a later state with the SP the CALL left and the byte there. -/
theorem witness_call_return :
    ∃ t, exec (.call 0) (ampleAt 0xFD) = .next t ∧ ∃ u : State, u.sp = t.sp ∧ u.load u.sp = t.load t.sp ∧ u ≠ t :=
  ⟨_, rfl, { ampleAt 0xFD with regs := #v[1, 2, 3, 4, 5, 6, 7, 0xF3], mem := [(0xF3, 0xFF)] }, by decide, by decide, by decide⟩

/-- ConditionalJumpResults: each condition and its negation, and the addresses where a jump not taken splits. -/
theorem witness_jumps :
    (0x01 : Byte).toNat % 2 = 1 ∧ ¬ (0x06 : Byte).toNat % 2 = 1 ∧
    (0x02 : Byte).toNat / 2 % 2 = 1 ∧ ¬ (0x05 : Byte).toNat / 2 % 2 = 1 ∧
    (0x04 : Byte).toNat / 4 % 2 = 1 ∧ ¬ (0x03 : Byte).toNat / 4 % 2 = 1 ∧
    (0x02 : Byte) &&& 0b00000011 ≠ 0 ∧ ¬ (0xFC : Byte) &&& 0b00000011 ≠ 0 ∧
    (0x01 : Byte) &&& 0b00000101 ≠ 0 ∧ ¬ (0xFA : Byte) &&& 0b00000101 ≠ 0 ∧
    (ampleAt 0xFD).pc.toNat + 2 ≤ 255 ∧ (ampleAt 0xFE).pc.toNat + 2 > 255 := by decide

/-- CompareThenJumpFollowsTheRelation: the last address, and registers that are less, equal and greater. -/
theorem witness_compare_jump :
    ample.pc.toNat + 5 ≤ 255 ∧ x ample 2 < x ample 1 ∧ x ample 1 = x ample 1 ∧ x ample 1 > x ample 3 := by decide

/-- InterruptRequestResult: the numbers 1 and 8, 0 and 9, and the addresses where the first and last clause meet. -/
theorem witness_interrupt_request :
    x ample 3 = 1 ∧ x ample 4 = 8 ∧ x ample 2 = 0 ∧ x ample 1 = 9 ∧
    (ampleAt 0xFD).pc.toNat + 2 ≤ 255 ∧ (ampleAt 0xFE).pc.toNat + 2 > 255 := by decide

/-- InstructionsStoreOnlyAtTheirAddress: a storing and a not storing instruction, each with a cell outside. -/
theorem witness_store_address :
    storedAt (.st 0 1) ample = some 0x30 ∧ storedAt (.push 1) ample = some 0xF3 ∧ storedAt (.call 1) ample = some 0xF3 ∧
    storedAt (.ld 0 1) ample = none ∧ (nextOf (exec (.st 0 1) ample)).isSome = true := by decide

/-- InstructionsWriteOnlyTheirRegisters: an instruction that completes and a register outside. -/
theorem witness_written_registers : 3 ∉ writtenRegs (.pop 1) ∧ (nextOf (exec (.pop 1) ample)).isSome = true := by decide

/-- OnlyCompareAndReturnWriteFlags, OnlyJumpInstructionsReadFlags: each kind of instruction completes. -/
theorem witness_flags :
    writesFlags (.add 0 1) = false ∧ readsFlags (.add 0 1) = false ∧ (nextOf (exec (.add 0 1) ample)).isSome = true ∧
    readsFlags (.jle 0) = true ∧ (nextOf (exec (.jle 0) ample)).isSome = true ∧
    (0xF8 : Byte).toNat % 8 = ample.fl.toNat % 8 ∧ (0xF8 : Byte) ≠ ample.fl := by decide

/-- InstructionsLeaveControlState: HLT, an instruction that prints and one that does not complete. -/
theorem witness_control_state :
    prints (.prn 1) = true ∧ prints (.hlt) = false ∧ (nextOf (exec .hlt ample)).isSome = true ∧
    (nextOf (exec (.prn 1) ample)).isSome = true := by decide

/-- SequentialInstructionsAdvanceByLength. -/
theorem witness_advance :
    ample.fatal = none ∧ (nextOf (exec (.ldi 7 0) ample)).map State.fatal = some none ∧
    (Instr.ldi 7 0).fields.b = false := by decide

/-- FatalErrorsArePrecise: a fatal error with nothing changed, and the one of step 7 after a completed instruction. -/
theorem witness_precise :
    ample.fatal = none ∧ (nextOf (exec (.div 1 2) ample)).map State.fatal = some (some .divZero) ∧
    (nextOf (exec (.inc 1) (ampleAt 0xFE))).map (fun t => (t.fatal, t.reg 1)) = some (some .pcRange, 0x0A) := by decide

/-- AdmissibleInstructionsComplete: for a division and an INT, at the last address. -/
theorem witness_admissible :
    (Instr.div 0 1).wellFormed = true ∧ (ampleAt 0xFC).readReg 1 ≠ .ok 0 ∧ (Instr.int 4).wellFormed = true ∧
    (ampleAt 0xFC).readReg 4 = .ok 8 ∧ (ampleAt 0xFC).pc.toNat + 3 ≤ 255 := by decide

/-- AdmissibleInstructionsComplete: the premise itself, for that division. -/
theorem witness_admissible_division : Admissible (.div 0 1) (ampleAt 0xFC) := by
  refine ⟨by decide, ?_, ?_⟩
  · rintro a b (h | h) <;> cases h
    decide
  · intro a n h
    cases h

/-- FatalErrorsAreFinal: a dead state with no command, one with a reset, and a state with a fatal status whose step
answers. -/
theorem witness_fatal_final :
    dead.host = [] ∧ dead.life = .started ∧ { dead with host := [.reset] }.host = .reset :: [] ∧ dead.fatal ≠ none ∧
    (after dead).isSome = true ∧ (after { dead with host := [.reset] }).map State.fatal = some none := by decide

/-- StepRunsDecodedInstruction: an instruction in memory, and one reached through an interrupt and a key. -/
theorem witness_step_runs :
    (base 0x10 [0x90, 0x00, 0x01]).running = true ∧
    ((base 0x10 [0x90, 0x00, 0x01]).takeInput.2.beforeFetch (base 0x10 [0x90, 0x00, 0x01]).takeInput.1).running = true ∧
    decode ((base 0x10 [0x90, 0x00, 0x01]).takeInput.2.beforeFetch (base 0x10 [0x90, 0x00, 0x01]).takeInput.1).codeBytes
      = .ok (.add 0 1, []) := by decide

/-- QuietStepRunsTheInstructionInMemory, with the instruction in the last three cells. -/
theorem witness_quiet_step :
    (base 0xFD [0x80, 0x01, 0x02]).takeInput = (⟨[], false⟩, { base 0xFD [0x80, 0x01, 0x02] with inputs := [] }) ∧ (∀ j, ¬ Serviceable (base 0xFD [0x80, 0x01, 0x02]) j) ∧
    ∀ k : Fin 3, (base 0xFD [0x80, 0x01, 0x02]).memRead ((base 0xFD [0x80, 0x01, 0x02]).pc.toNat + k) =
      .ok ((encode (.nop2 1 2))[k.val]'k.isLt) := by decide

/-- FetchFaultsInOrder: one state for each branch, the first two where a later branch would also fault. -/
theorem witness_fetch_faults :
    (nextOf (fetchAndExec (base 0xFF [0xC0]))).map State.fatal = some (some .decode) ∧
    (nextOf (fetchAndExec (base 0xFF [0xB0]))).map State.fatal = some (some .decode) ∧
    (nextOf (fetchAndExec (base 0xFE [0x89, 0x00]))).map State.fatal = some (some .memRange) ∧
    (nextOf (fetchAndExec (base 0xFD [0x89, 0x00]))).map State.fatal = some (some .decode) ∧
    (nextOf (fetchAndExec (base 0xFE [0x55, 0x01]))).map (fun t => t.reg 1) = some 0x01 := by decide

/-- StopEndsTheRunBeforeTheFetch: with keys before and after a stop, and a cancel with none. -/
theorem witness_stop :
    ample.running = true ∧
    (withInput ample [.key 1, .key 2, .stop, .key 3] true).takeInput =
      (⟨[(1 : Byte), 2].map .key ++ .stop :: [.key 3], true⟩, { ample with inputs := [] }) ∧
    (withInput ample [.cancel] false).takeInput =
      (⟨([] : List Byte).map .key ++ .cancel :: [], false⟩, { ample with inputs := [] }) := by decide

/-- A state with lines 2 and 7 pending and enabled and line 0 pending and masked. -/
def twoLines : State := withRegs ample [(5, 0x84), (6, 0x85)]

/-- Line 2 is the chosen line there (InterruptReturnRestoresThePreInterruptState, DispatchPrecedesTheFetch). -/
theorem witness_chosen : Chosen twoLines 2 := by decide

/-- DispatchPrecedesTheFetch, TickWaitsForTheNextCheck: a tick with a batch that leaves the machine running, with no line to
service (the tick's own line enabled) and with one. -/
theorem witness_dispatch :
    (withInput ample [.key 5] true).takeInput = (⟨[.key 5], true⟩, { ample with inputs := [] }) ∧
    (State.applyEvents [.key 5] { ample with inputs := [] }).running = true ∧ ample.im = 0x01 ∧
    (∀ i, ¬ Serviceable (State.applyEvents [.key 5] { ample with inputs := [] }) i) ∧
    (withInput twoLines [.key 5] true).takeInput = (⟨[.key 5], true⟩, { twoLines with inputs := [] }) ∧
    (State.applyEvents [.key 5] { twoLines with inputs := [] }).running = true ∧
    Chosen (State.applyEvents [.key 5] { twoLines with inputs := [] }) 2 := by decide

/-- The state in which a run begun by the host's reset, load and start executes its first cycle: no input is given. -/
def begun : State := { State.reset with running := true, life := .started, mem := [(0, 0x01)] }

/-- DispatchPrecedesTheFetch, and with fitting values of the draw QuietStepRunsTheInstructionInMemory,
StopEndsTheRunBeforeTheFetch and TickWaitsForTheNextCheck: their premise on the input is met where it is drawn. -/
theorem witness_drawn_input :
    runN 3 (hostSession [0x01]) = some begun ∧
    begun.takeInput = (⟨(Config.freeInput 0).events, (Config.freeInput 0).tick⟩, { begun with drawn := 1 }) :=
  ⟨by decide, rfl⟩

/-- PendingLinesWait: a cycle that clears a pending bit, an instruction that clears one, a reset that does, a mask of 0. -/
theorem witness_pending :
    twoLines.is.getLsbD 2 = true ∧ (twoLines.beforeFetch .quiet).is.getLsbD 2 = false ∧
    (nextOf (exec (.ldi 6 0) twoLines)).map (fun t => t.is.getLsbD 2) = some false ∧
    (after { twoLines with running := false, host := [.reset] }).map (fun t => t.is.getLsbD 2) = some false ∧
    (twoLines.setReg 5 0).im = 0 := by decide

/-- ResetIsTheSameFromAnyState: from an ended run. -/
theorem witness_reset :
    { dead with host := [.reset, .start] }.running = false ∧
    { dead with host := [.reset, .start] }.host = .reset :: [.start] := by decide

/-- LoadThenStartBeginsTheRun: the longest image that is loaded and the shortest that is not. -/
theorem witness_load :
    State.reset.running = false ∧ State.reset.life = .reset ∧
    (List.replicate 256 (0x01 : Byte)).length ≤ 256 ∧ (List.replicate 257 (0x01 : Byte)).length > 256 := by
  rw [List.length_replicate, List.length_replicate]
  decide

/-- EndedRunsStayAsTheyAre. -/
theorem witness_ended : dead.running = false ∧ dead.host = [] ∧ dead.life = .started := by decide

/-- StepsKeepTheInvariant, OutputIsAppendOnly: a running legal state whose step prints. -/
theorem witness_invariant :
    (base 0x10 [0x47, 0x07]).Inv ∧ (after (base 0x10 [0x47, 0x07])).map State.out = some [.prn 0xF4] := by decide

/-- StepsAreNeverStuck: a state of its second alternative. -/
theorem witness_refusal :
    State.reset.running = false ∧ step { State.reset with host := [.start] } = .refused (.hostOutOfOrder .start) :=
  ⟨rfl, rfl⟩

end Sys2Proof.Tests
end

section
/-! Memory accesses and the stack (20_memory.md R31, R37): what a checked access answers, what a sequence of stack uses
does to SP, and which registers an instruction can change. -/

namespace Sys2Proof.Proofs

open Sys2Proof.Machine Sys2Proof.Claims

/-! ### Memory accesses with the bounds check -/

theorem memRead_of_le (s : State) {addr : Nat} (h : addr ≤ 255) : s.memRead addr = .ok (Memory.get s.mem addr) :=
  if_neg (Nat.not_lt.2 h)

theorem memRead_of_gt (s : State) {addr : Nat} (h : addr > 255) : s.memRead addr = .error .memRange := if_pos h

theorem memWrite_of_le (s : State) {addr : Nat} (v : Byte) (h : addr ≤ 255) :
    s.memWrite addr v = .ok { s with mem := Memory.put s.mem addr v } := if_neg (Nat.not_lt.2 h)

theorem memWrite_of_gt (s : State) {addr : Nat} (v : Byte) (h : addr > 255) :
    s.memWrite addr v = .error .memRange := if_pos h

theorem memWrite_eq_ok {s t : State} {addr : Nat} {v : Byte} (h : s.memWrite addr v = .ok t) :
    t = { s with mem := Memory.put s.mem addr v } := by
  unfold State.memWrite at h
  split at h <;> cases h
  rfl

/-- Settles O7: each access is decided by the bounds check, and a cell read after the write is `Memory.get_put`. -/
theorem memoryAccessIsBoundsChecked : Obligations.MemoryAccessIsBoundsChecked := by
  intro s addr v
  refine ⟨fun hle => ⟨memRead_of_le s hle, _, memWrite_of_le s v hle, ?_, rfl, ?_⟩,
    fun hgt => ⟨memRead_of_gt s hgt, memWrite_of_gt s v hgt⟩⟩
  · rw [memRead_of_le _ hle, Memory.get_put, if_pos rfl]
  · intro b hb hne
    rw [memRead_of_le _ hb, memRead_of_le _ hb, Memory.get_put, if_neg hne]

/-! ### Push and pop -/

/-- R37's push: SP falls by one modulo 256, the new SP's cell takes the byte, and nothing else changes. -/
theorem push_spec (s : State) (v : Byte) :
    (s.push v).sp.toNat = (s.sp.toNat + 255) % 256 ∧ (∀ j : Index, j ≠ 7 → (s.push v).reg j = s.reg j) ∧
    (∀ b : Byte, (s.push v).load b = if b = (s.push v).sp then v else s.load b) ∧
    { s.push v with regs := s.regs, mem := s.mem } = s := by
  refine ⟨?_, fun j hj => ?_, fun b => ?_, rfl⟩
  · rw [State.sp_push]
    bv_omega
  · exact (s.reg_push v j).trans (if_neg hj)
  · rw [State.load_push, State.sp_push]

/-- R37's pop: the byte at SP is the value, SP rises by one modulo 256, and nothing else changes. -/
theorem pop_spec (s : State) :
    s.pop.1 = s.load s.sp ∧ s.pop.2.sp.toNat = (s.sp.toNat + 1) % 256 ∧
    (∀ j : Index, j ≠ 7 → s.pop.2.reg j = s.reg j) ∧ { s.pop.2 with regs := s.regs } = s := by
  refine ⟨State.pop_value s, ?_, fun j hj => (s.reg_pop j).trans (if_neg hj), rfl⟩
  rw [State.sp_pop]
  bv_omega

/-! ### Sequences of stack uses -/

/-- The pushes move SP down and the pops move it up, one each, in whatever order they come. -/
theorem sp_foldl_apply (ops : List StackOp) (s : State) :
    (ops.foldl StackOp.apply s).sp + BitVec.ofNat 8 (ops.countP StackOp.isPush) =
      s.sp + BitVec.ofNat 8 (ops.countP (fun o => !o.isPush)) := by
  induction ops generalizing s with
  | nil => rfl
  | cons op ops ih =>
    rw [List.foldl_cons]
    cases op with
    | push v =>
      have hrest := ih (s.push v)
      have hpush : (StackOp.push v :: ops).countP StackOp.isPush = ops.countP StackOp.isPush + 1 :=
        List.countP_cons_of_pos rfl
      have hpop : (StackOp.push v :: ops).countP (fun o => !o.isPush) = ops.countP (fun o => !o.isPush) :=
        List.countP_cons_of_neg Bool.false_ne_true
      rw [State.sp_push] at hrest
      rw [hpush, hpop, StackOp.apply]
      bv_omega
    | pop =>
      have hrest := ih s.pop.2
      have hpush : (StackOp.pop :: ops).countP StackOp.isPush = ops.countP StackOp.isPush :=
        List.countP_cons_of_neg Bool.false_ne_true
      have hpop : (StackOp.pop :: ops).countP (fun o => !o.isPush) = ops.countP (fun o => !o.isPush) + 1 :=
        List.countP_cons_of_pos rfl
      rw [State.sp_pop] at hrest
      rw [hpush, hpop, StackOp.apply]
      bv_omega

/-- As many pushes as pops leave SP where it was. -/
theorem sp_foldl_apply_of_balanced (ops : List StackOp) (s : State)
    (h : ops.countP StackOp.isPush = ops.countP (fun o => !o.isPush)) : (ops.foldl StackOp.apply s).sp = s.sp := by
  have hsum := sp_foldl_apply ops s
  rw [h] at hsum
  exact add_right_cancel hsum

/-! ### The registers an instruction changes -/

/-- Everything an instruction that ended can have done: it raised an error, it was a flow-control instruction, or step 7
moved the PC or ran off the end of memory (43_cycle.md R132, R135). -/
theorem exec_cases {i : Instr} {s t : State} (h : exec i s = .next t) :
    (∃ c, effect i s = .error c ∧ t = s.raise c) ∨
    (i.fields.b = true ∧ effect i s = .ok t) ∨
    (∃ u, i.fields.b = false ∧ effect i s = .ok u ∧ u.pc.toNat + i.size ≤ 255 ∧
      t = { u with pc := u.pc + BitVec.ofNat 8 i.size }) ∨
    (∃ u, i.fields.b = false ∧ effect i s = .ok u ∧ u.pc.toNat + i.size > 255 ∧ t = u.raise .pcRange) := by
  rw [exec_eq] at h
  cases hb : i.fields.b with
  | true =>
    rw [hb, if_pos rfl] at h
    rcases endFlow_cases h with herr | hok
    · exact .inl herr
    · exact .inr (.inl ⟨rfl, hok⟩)
  | false =>
    rw [hb, if_neg Bool.false_ne_true] at h
    rcases endSequential_cases h with herr | ⟨u, hu, hpc, ht⟩ | ⟨u, hu, hpc, ht⟩
    · exact .inl herr
    · exact .inr (.inr (.inl ⟨u, rfl, hu, hpc, ht⟩))
    · exact .inr (.inr (.inr ⟨u, rfl, hu, hpc, ht⟩))

/-- A register whose number is not in a list is none of the registers in it. -/
theorem ne_of_val_notMem {j k : Index} {l : List Nat} (hj : (j : Nat) ∉ l) (hk : (k : Nat) ∈ l) : j ≠ k := by
  rintro rfl
  exact hj hk

/-- A write to a register operand leaves the other registers. -/
theorem writeReg_reg_other {s t : State} {r v : Byte} {j : Index} (h : s.writeReg r v = .ok t)
    (hj : (j : Nat) ≠ r.toNat) : t.reg j = s.reg j := by
  obtain ⟨i, hi, rfl⟩ := State.writeReg_eq_ok h
  rw [State.reg_setReg, if_neg]
  rintro rfl
  exact hj hi.symm

theorem binaryEffect_reg_other {f : Byte → Byte → Except Cause Byte} {a b : Byte} {s t : State} {j : Index}
    (h : binaryEffect f a b s = .ok t) (hj : (j : Nat) ≠ a.toNat) : t.reg j = s.reg j := by
  obtain ⟨_, -, h⟩ := bind_eq_ok h
  obtain ⟨_, -, h⟩ := bind_eq_ok h
  obtain ⟨_, -, h⟩ := bind_eq_ok h
  exact writeReg_reg_other h hj

theorem unaryEffect_reg_other {f : Byte → Byte} {a : Byte} {s t : State} {j : Index}
    (h : unaryEffect f a s = .ok t) (hj : (j : Nat) ≠ a.toNat) : t.reg j = s.reg j := by
  obtain ⟨_, -, h⟩ := bind_eq_ok h
  exact writeReg_reg_other h hj

theorem jumpEffect_eq_ok {cond : Byte → Bool} {a : Byte} {s t : State} (h : jumpEffect cond a s = .ok t) :
    ∃ p, t = { s with pc := p } := by
  obtain ⟨p, -, h⟩ := bind_eq_ok h
  split at h
  · cases h
    exact ⟨p, rfl⟩
  · exact ⟨_, (State.advance_eq_ok h).2⟩

/-- The effect of an instruction changes no register that `writtenRegs` does not list (10_state.md, the access table of
section 1). -/
theorem effect_reg_other {i : Instr} {s t : State} {j : Index} (h : effect i s = .ok t)
    (hj : (j : Nat) ∉ writtenRegs i) : t.reg j = s.reg j := by
  cases i with
  | nop | nop1 | nop2 | hlt =>
    cases h
    rfl
  | add a b | sub a b | mul a b | div a b | mod a b | and a b | or a b | xor a b | shl a b | shr a b =>
    exact binaryEffect_reg_other h (mt List.mem_singleton.2 hj)
  | inc a | dec a | not a => exact unaryEffect_reg_other h (mt List.mem_singleton.2 hj)
  | ldi a imm => exact writeReg_reg_other h (mt List.mem_singleton.2 hj)
  | ld a b =>
    obtain ⟨_, -, h⟩ := bind_eq_ok h
    obtain ⟨_, -, h⟩ := bind_eq_ok h
    exact writeReg_reg_other h (mt List.mem_singleton.2 hj)
  | st a b =>
    obtain ⟨_, -, h⟩ := bind_eq_ok h
    obtain ⟨_, -, h⟩ := bind_eq_ok h
    rw [memWrite_eq_ok h]
    rfl
  | cmp a b =>
    obtain ⟨_, -, h⟩ := bind_eq_ok h
    obtain ⟨_, -, h⟩ := bind_eq_ok h
    cases h
    rfl
  | jmp a | prn a | pra a =>
    obtain ⟨_, -, h⟩ := bind_eq_ok h
    cases h
    rfl
  | jeq a | jne a | jgt a | jlt a | jle a | jge a =>
    obtain ⟨_, rfl⟩ := jumpEffect_eq_ok h
    rfl
  | int a =>
    obtain ⟨_, -, h⟩ := bind_eq_ok h
    obtain ⟨_, -, h⟩ := bind_eq_ok h
    obtain ⟨u, hu, h⟩ := bind_eq_ok h
    obtain ⟨-, rfl⟩ := State.advance_eq_ok hu
    cases h
    have hne : j ≠ Config.isIndex := ne_of_val_notMem hj (List.mem_singleton.2 rfl)
    rw [State.request, State.reg_setReg, if_neg hne]
    rfl
  | push a =>
    obtain ⟨_, -, h⟩ := bind_eq_ok h
    cases h
    have hne : j ≠ Config.spIndex := ne_of_val_notMem hj (List.mem_singleton.2 rfl)
    rw [State.reg_push, if_neg hne]
  | pop a =>
    obtain ⟨k, hk, h⟩ := bind_eq_ok h
    cases h
    have hk : (k : Nat) ∈ writtenRegs (.pop a) := by simp [writtenRegs, regIndex_eq_ok hk]
    have hsp : (Config.spIndex : Nat) ∈ writtenRegs (.pop a) := by simp [writtenRegs, Config.spIndex]
    rw [State.reg_popReg, if_neg (ne_of_val_notMem hj hk), if_neg (ne_of_val_notMem hj hsp)]
  | call a =>
    obtain ⟨_, -, h⟩ := bind_eq_ok h
    obtain ⟨next, -, h⟩ := bind_eq_ok h
    cases h
    have hne : j ≠ Config.spIndex := ne_of_val_notMem hj (List.mem_singleton.2 rfl)
    exact (s.reg_push next.pc j).trans (if_neg hne)
  | ret =>
    cases h
    have hne : j ≠ Config.spIndex := ne_of_val_notMem hj (List.mem_singleton.2 rfl)
    exact (s.reg_pop j).trans (if_neg hne)
  | iret =>
    have hall : (j : Nat) ∈ List.range 8 := List.mem_range.2 j.isLt
    exact absurd hall hj

/-- Neither the end of an instruction nor a fatal error changes a register, so the frame is the effect's. -/
theorem exec_reg_other {i : Instr} {s t : State} {j : Index} (h : exec i s = .next t)
    (hj : (j : Nat) ∉ writtenRegs i) : t.reg j = s.reg j := by
  rcases exec_cases h with ⟨c, -, rfl⟩ | ⟨-, he⟩ | ⟨u, -, he, -, rfl⟩ | ⟨u, -, he, -, rfl⟩
  · rfl
  · exact effect_reg_other he hj
  · exact effect_reg_other (t := u) he hj
  · exact effect_reg_other (t := u) he hj

/-! ### The stack's obligation -/

/-- Settles O8: the two primitives, a balanced sequence by counting its moves of SP, and the register frame of `exec`
at R7. -/
theorem stackPrimitives : Obligations.StackPrimitives :=
  ⟨push_spec, pop_spec, fun s ops hbal => sp_foldl_apply_of_balanced ops s hbal,
    fun _ _ _ hexec hsp => exec_reg_other (j := Config.spIndex) hexec hsp⟩

end Sys2Proof.Proofs
end

section
/-! The fields of the opcode byte as numbers (30_encoding.md R51): what `split` reads is the quotient and remainder of
the byte by the weight and width of each field. -/

namespace Sys2Proof.Proofs

theorem split_aa_toNat (ir : Byte) : (split ir).aa.toNat = ir.toNat / 64 := by
  have hshift : (split ir).aa.toNat = ir.toNat / 2 ^ 6 % 4 := by
    rw [← Nat.shiftRight_eq_div_pow]
    exact BitVec.extractLsb'_toNat 6 2 ir
  omega

theorem split_b_eq (ir : Byte) : (split ir).b = (ir.toNat / 32 % 2 == 1) :=
  Nat.testBit_eq_decide_div_mod_eq (x := ir.toNat) (i := 5)

theorem split_c_eq (ir : Byte) : (split ir).c = (ir.toNat / 16 % 2 == 1) :=
  Nat.testBit_eq_decide_div_mod_eq (x := ir.toNat) (i := 4)

theorem split_b_toNat (ir : Byte) : (split ir).b.toNat = ir.toNat / 32 % 2 := Nat.toNat_testBit ir.toNat 5

theorem split_c_toNat (ir : Byte) : (split ir).c.toNat = ir.toNat / 16 % 2 := Nat.toNat_testBit ir.toNat 4

theorem split_dddd_toNat (ir : Byte) : (split ir).dddd.toNat = ir.toNat % 16 := BitVec.extractLsb'_toNat 0 4 ir

/-- R51's value of the byte: its fields are its digits to the weights 64, 32, 16 and 1. -/
theorem toNat_eq_split_sum (ir : Byte) :
    ir.toNat = 64 * (split ir).aa.toNat + 32 * (split ir).b.toNat + 16 * (split ir).c.toNat + (split ir).dddd.toNat := by
  rw [split_aa_toNat, split_b_toNat, split_c_toNat, split_dddd_toNat]
  omega

/-- Settles O5: each field by its position in the byte, and the byte as the sum of its digits. -/
theorem opcodeByteFields : Obligations.OpcodeByteFields := fun ir =>
  ⟨split_aa_toNat ir, split_b_eq ir, split_c_eq ir, split_dddd_toNat ir, toNat_eq_split_sum ir⟩

end Sys2Proof.Proofs
end

section
/-! The dispatch check (43_cycle.md R127, 60_exceptions.md R147 to R149): which line it enters, what interrupt entry does
to the registers and the PC, and the step of a running machine as the check, the tick and the fetch. -/

namespace Sys2Proof.Proofs

open Sys2Proof.Machine Sys2Proof.Claims

/-! ### The line the check enters -/

theorem serviceable_iff (s : State) (i : Index) : Serviceable s i ↔ (s.im &&& s.is).getLsbD i = true := by
  rw [BitVec.getLsbD_and, Bool.and_eq_true]

theorem not_serviceable_iff (s : State) (i : Index) : ¬ Serviceable s i ↔ (s.im &&& s.is).getLsbD i = false := by
  rw [serviceable_iff, Bool.not_eq_true]

theorem lowestLine_eq_some_iff_chosen (s : State) (i : Index) : lowestLine (s.im &&& s.is) = some i ↔ Chosen s i := by
  rw [lowestLine_eq_some_iff, ← serviceable_iff]
  simp only [← not_serviceable_iff]

theorem lowestLine_eq_none_iff_not_serviceable (s : State) :
    lowestLine (s.im &&& s.is) = none ↔ ∀ i, ¬ Serviceable s i := by
  simp only [lowestLine_eq_none_iff, ← not_serviceable_iff]

theorem dispatchCheck_of_chosen {s : State} {i : Index} (h : Chosen s i) : s.dispatchCheck = s.interruptEntry i := by
  rw [State.dispatchCheck, (lowestLine_eq_some_iff_chosen s i).2 h]

theorem dispatchCheck_of_not_serviceable {s : State} (h : ∀ i, ¬ Serviceable s i) : s.dispatchCheck = s := by
  rw [State.dispatchCheck, (lowestLine_eq_none_iff_not_serviceable s).2 h]

/-! ### Interrupt entry -/

/-- The vector is read after the pushes. -/
theorem interruptEntry_pc (s : State) (i : Index) : (s.interruptEntry i).pc = (s.interruptEntry i).load (vectorOf i) :=
  rfl

/-- The pushes of the entry move SP; the registers below it are those after the acknowledge. -/
theorem interruptEntry_reg {j : Index} (s : State) (i : Index) (hj : j ≠ Config.spIndex) :
    (s.interruptEntry i).reg j = (s.acknowledge i).reg j :=
  State.foldl_push_reg (s.acknowledge i).context (s.acknowledge i) j hj

/-- The entry clears the pending bit of its own line and no other. -/
theorem interruptEntry_is (s : State) (i j : Index) :
    (s.interruptEntry i).is.getLsbD j = (s.is.getLsbD j && decide (j ≠ i)) := by
  have his : (s.interruptEntry i).is = (s.acknowledge i).is := interruptEntry_reg s i (by decide)
  rw [his, State.is_acknowledge]

/-! ### The check's obligation -/

/-- A step whose events leave the machine running fetches in the state after the dispatch check and the tick. -/
theorem step_of_running_events {s later : State} {events : List Event} {tick : Bool} (hrun : s.running = true)
    (hin : s.takeInput = (⟨events, tick⟩, later)) (hev : (State.applyEvents events later).running = true) :
    step s = fetchAndExec ((State.applyEvents events later).dispatchCheck.timerTick tick) := by
  rw [step_of_takeInput hrun hin, cycle_of_running _ _ hev]

/-- Settles O50: the step is the check, the tick and the fetch, and the check enters the chosen line or none. -/
theorem dispatchPrecedesTheFetch : Obligations.DispatchPrecedesTheFetch := by
  rintro s later _ events tick hrun hin rfl hev
  have hstep := step_of_running_events hrun hin hev
  refine ⟨fun hnone => ?_, fun i hi => ⟨?_, interruptEntry_pc _ i, State.interruptEntry_fatal _ i,
    interruptEntry_is _ i⟩⟩
  · rw [hstep, dispatchCheck_of_not_serviceable hnone]
  · rw [hstep, dispatchCheck_of_chosen hi]

end Sys2Proof.Proofs
end

section
/-! Fatal errors (60_exceptions.md R142): what each part of a step keeps of the state, and so that only the host's reset
clears a fatal status and moves a started machine that has ended. -/

namespace Sys2Proof.Proofs

open Sys2Proof.Machine

/-! ### The fatal status along a step -/

theorem binaryEffect_eq_ok {f : Byte → Byte → Except Cause Byte} {a b : Byte} {s t : State}
    (h : binaryEffect f a b s = .ok t) : ∃ i v, t = s.setReg i v := by
  obtain ⟨_, -, h⟩ := bind_eq_ok h
  obtain ⟨_, -, h⟩ := bind_eq_ok h
  obtain ⟨v, -, h⟩ := bind_eq_ok h
  obtain ⟨i, -, ht⟩ := State.writeReg_eq_ok h
  exact ⟨i, v, ht⟩

theorem unaryEffect_eq_ok {f : Byte → Byte} {a : Byte} {s t : State} (h : unaryEffect f a s = .ok t) :
    ∃ i v, t = s.setReg i v := by
  obtain ⟨v, -, h⟩ := bind_eq_ok h
  obtain ⟨i, -, ht⟩ := State.writeReg_eq_ok h
  exact ⟨i, f v, ht⟩

/-- The line INT requests and the PC after itself are all that it changes (42_flow.md R115). -/
theorem effect_int_eq_ok {a : Byte} {s t : State} (h : effect (.int a) s = .ok t) :
    ∃ line p, t = { s with pc := p }.request line := by
  obtain ⟨_, -, h⟩ := bind_eq_ok h
  obtain ⟨line, -, h⟩ := bind_eq_ok h
  obtain ⟨u, hu, h⟩ := bind_eq_ok h
  obtain ⟨-, rfl⟩ := State.advance_eq_ok hu
  cases h
  exact ⟨line, _, rfl⟩

/-- The effect of an instruction keeps the fatal status, the inputs, the host's commands and the lifecycle. -/
theorem effect_parts {i : Instr} {s t : State} (h : effect i s = .ok t) :
    { t with regs := s.regs, pc := s.pc, fl := s.fl, mem := s.mem, running := s.running, out := s.out } = s := by
  cases i with
  | nop | nop1 | nop2 | hlt | ret =>
    cases h
    rfl
  | iret =>
    have ht : s.interruptReturn = t := Except.ok.inj h
    rw [← ht]
    simp only [State.interruptReturn_fatal, State.interruptReturn_inputs, State.interruptReturn_drawn,
      State.interruptReturn_host, State.interruptReturn_life]
  | add a b | sub a b | mul a b | div a b | mod a b | and a b | or a b | xor a b | shl a b | shr a b =>
    obtain ⟨_, _, rfl⟩ := binaryEffect_eq_ok h
    rfl
  | inc a | dec a | not a =>
    obtain ⟨_, _, rfl⟩ := unaryEffect_eq_ok h
    rfl
  | ldi a imm =>
    obtain ⟨_, -, rfl⟩ := State.writeReg_eq_ok h
    rfl
  | ld a b =>
    obtain ⟨_, -, h⟩ := bind_eq_ok h
    obtain ⟨_, -, h⟩ := bind_eq_ok h
    obtain ⟨_, -, rfl⟩ := State.writeReg_eq_ok h
    rfl
  | st a b =>
    obtain ⟨_, -, h⟩ := bind_eq_ok h
    obtain ⟨_, -, h⟩ := bind_eq_ok h
    rw [memWrite_eq_ok h]
  | cmp a b | call a =>
    obtain ⟨_, -, h⟩ := bind_eq_ok h
    obtain ⟨_, -, h⟩ := bind_eq_ok h
    cases h
    rfl
  | jmp a | prn a | pra a | push a | pop a =>
    obtain ⟨_, -, h⟩ := bind_eq_ok h
    cases h
    rfl
  | jeq a | jne a | jgt a | jlt a | jle a | jge a =>
    obtain ⟨_, rfl⟩ := jumpEffect_eq_ok h
    rfl
  | int a =>
    obtain ⟨_, _, rfl⟩ := effect_int_eq_ok h
    rfl

theorem effect_fatal {i : Instr} {s t : State} (h : effect i s = .ok t) : t.fatal = s.fatal := by
  have hparts := congrArg State.fatal (effect_parts h)
  exact hparts

theorem raise_fatal_ne_none (s : State) (c : Cause) : (s.raise c).fatal ≠ none := Option.some_ne_none c

/-- An instruction that ends raises a fatal error or keeps the fatal status (60_exceptions.md R142). -/
theorem exec_keeps_fatal {i : Instr} {s t : State} (hs : s.fatal ≠ none) (h : exec i s = .next t) : t.fatal ≠ none := by
  rcases exec_cases h with ⟨c, -, rfl⟩ | ⟨-, he⟩ | ⟨u, -, he, -, rfl⟩ | ⟨u, -, -, -, rfl⟩
  · exact raise_fatal_ne_none s c
  · rwa [effect_fatal he]
  · have hu : u.fatal = s.fatal := effect_fatal he
    exact hu ▸ hs
  · exact raise_fatal_ne_none u .pcRange

theorem fetchAndExec_keeps_fatal {s t : State} (hs : s.fatal ≠ none) (h : fetchAndExec s = .next t) :
    t.fatal ≠ none := by
  rcases fetchAndExec_cases s with ⟨i, _, -, e⟩ | ⟨err, -, e⟩ <;> rw [e] at h
  · exact exec_keeps_fatal hs h
  · cases h
    exact raise_fatal_ne_none s _

theorem dispatchCheck_fatal (s : State) : s.dispatchCheck.fatal = s.fatal := by
  rcases s.dispatchCheck_cases with ⟨-, e⟩ | ⟨i, -, -, e⟩
  · rw [e]
  · rw [e, State.interruptEntry_fatal]

/-- Steps 0 to 2 of a cycle end in the state after the events, or after the check and the tick on it. -/
theorem beforeFetch_cases (s : State) (input : CycleInput) :
    s.beforeFetch input = State.applyEvents input.events s ∨
      s.beforeFetch input = (State.applyEvents input.events s).dispatchCheck.timerTick input.tick := by
  cases hrun : (State.applyEvents input.events s).running with
  | false => exact .inl (if_neg (by simp [hrun]))
  | true => exact .inr (if_pos hrun)

theorem beforeFetch_fatal (s : State) (input : CycleInput) : (s.beforeFetch input).fatal = s.fatal := by
  rcases beforeFetch_cases s input with e | e
  · rw [e, State.applyEvents_fatal]
  · rw [e, State.timerTick_fatal, dispatchCheck_fatal, State.applyEvents_fatal]

/-! ### The host's port -/

theorem hostLoad_regs (s : State) (image : List Byte) : (s.hostLoad image).regs = s.regs := by
  unfold State.hostLoad
  split <;> rfl

theorem hostLoad_fatal (s : State) (image : List Byte) : (s.hostLoad image).fatal = s.fatal := by
  unfold State.hostLoad
  split <;> rfl

/-- Of the host's commands only a reset changes a register or the fatal status (70_reset_and_hazards.md R170 to R172). -/
theorem hostStep_keeps_regs_fatal {s t : State} (h : s.hostStep = .next t) :
    (t.regs = s.regs ∧ t.fatal = s.fatal) ∨ ∃ rest, s.host = .reset :: rest := by
  rcases s.hostStep_cases with ⟨-, e⟩ | ⟨rest, hh, -⟩ | ⟨image, rest, -, -, e⟩ | ⟨rest, -, -, e⟩ | ⟨c, e⟩
  · cases e.symm.trans h
    exact .inl ⟨rfl, rfl⟩
  · exact .inr ⟨rest, hh⟩
  · cases e.symm.trans h
    exact .inl ⟨hostLoad_regs _ image, hostLoad_fatal _ image⟩
  · cases e.symm.trans h
    exact .inl ⟨rfl, rfl⟩
  · cases e.symm.trans h

/-- A started machine refuses load and start, so a host move that is no reset is none at all. -/
theorem hostStep_of_started {s t : State} (hlife : s.life = .started) (hreset : ∀ rest, s.host ≠ .reset :: rest)
    (h : s.hostStep = .next t) : t = s := by
  rcases s.hostStep_cases with ⟨-, e⟩ | ⟨rest, hh, -⟩ | ⟨_, _, -, hl, -⟩ | ⟨_, -, hl, -⟩ | ⟨_, e⟩
  · cases e.symm.trans h
    rfl
  · exact absurd hh (hreset rest)
  · cases hlife.symm.trans hl
  · cases hlife.symm.trans hl
  · cases e.symm.trans h

theorem hostStep_of_reset {s : State} {rest : List HostCommand} (h : s.host = .reset :: rest) :
    s.hostStep = .next { s with host := rest }.hostReset := by
  rw [State.hostStep, h]

theorem step_of_no_command {s : State} (hrun : s.running = false) (hhost : s.host = []) : step s = .next s := by
  rw [step_of_not_running s hrun, State.hostStep, hhost]

/-- A state that steps to itself stays for any number of steps. -/
theorem run_of_step_self {M : Host.Core} {s : M.State} (h : M.step s = .next s) (n : Nat) : M.run n s = .next s := by
  induction n with
  | zero => rfl
  | succ n ih =>
    rw [Host.Core.run, h]
    exact ih

/-! ### The obligation -/

/-- Only the host's reset takes a step from a fatal status to none (60_exceptions.md R142, "sticky"). -/
theorem step_keeps_fatal {s t : State} (hs : s.fatal ≠ none) (h : step s = .next t) :
    t.fatal ≠ none ∨ ∃ rest, s.host = .reset :: rest := by
  have hbefore : (s.takeInput.2.beforeFetch s.takeInput.1).fatal ≠ none := by
    rwa [beforeFetch_fatal, State.takeInput_fatal]
  rcases step_cases h with ⟨-, hhost⟩ | ⟨-, -, rfl⟩ | ⟨-, -, hfetch⟩
  · exact (hostStep_keeps_regs_fatal hhost).imp_left fun ⟨_, hf⟩ => hf ▸ hs
  · exact .inl hbefore
  · exact .inl (fetchAndExec_keeps_fatal hbefore hfetch)

/-- Settles O43: a raised state is not running, so its step is the host's, which only a reset moves. -/
theorem fatalErrorsAreFinal : Obligations.FatalErrorsAreFinal := by
  refine ⟨fun s c => ⟨rfl, rfl, rfl, fun hhost => ?_, fun hlife hreset t h => ?_, fun rest hhost => ?_, ?_⟩,
    fun s t => step_keeps_fatal⟩
  · exact run_of_step_self (M := core) (step_of_no_command (s := s.raise c) rfl hhost)
  · rw [step_of_not_running _ rfl] at h
    exact hostStep_of_started hlife hreset h
  · rw [step_of_not_running _ rfl, hostStep_of_reset (s := s.raise c) hhost]
    exact ⟨_, rfl, rfl⟩
  · rintro ⟨-, hnone⟩
    exact raise_fatal_ne_none s c hnone

end Sys2Proof.Proofs
end

section
/-! Pending lines (60_exceptions.md R146): the IS bits each part of a step can clear. -/

namespace Sys2Proof.Proofs

open Sys2Proof.Machine Sys2Proof.Claims

/-! ### Requests -/

theorem setReg_reg_self (s : State) (i : Index) : s.setReg i (s.reg i) = s := by
  have hregs : s.regs.set i (s.reg i) = s.regs := Vector.set_getElem_self i.isLt
  rw [State.setReg, hregs]

/-- A bit that is set stays under a request, of any line (10_state.md R20). -/
theorem request_keeps_pending {s : State} {j : Index} (line : Index) (h : s.is.getLsbD j = true) :
    (s.request line).is.getLsbD j = true := by
  rw [State.is_request, h, Bool.true_or]

theorem or_twoPow_of_getLsbD {m : Byte} {j : Index} (h : m.getLsbD j = true) : m ||| BitVec.twoPow 8 j = m := by
  apply BitVec.eq_of_getLsbD_eq
  intro k _
  rw [BitVec.getLsbD_or, BitVec.getLsbD_twoPow]
  by_cases hk : (j : Nat) = k
  · rw [← hk, h, Bool.true_or]
  · simp [hk]

/-- One bit per line and no count: the second request of a line is absorbed. -/
theorem request_of_pending {s : State} {j : Index} (h : s.is.getLsbD j = true) : s.request j = s := by
  rw [State.request, or_twoPow_of_getLsbD h]
  exact setReg_reg_self s Config.isIndex

/-! ### Steps 0 to 2 of a cycle -/

theorem timerTick_keeps_pending {s : State} {j : Index} (tick : Bool) (h : s.is.getLsbD j = true) :
    (s.timerTick tick).is.getLsbD j = true := by
  cases tick with
  | false => exact h
  | true => exact request_keeps_pending Config.timerLine h

/-- The check clears the bit of the line it enters and no other. -/
theorem dispatchCheck_keeps_pending {s : State} {j : Index} (h : s.is.getLsbD j = true) (hj : ¬ Chosen s j) :
    s.dispatchCheck.is.getLsbD j = true := by
  cases hline : lowestLine (s.im &&& s.is) with
  | none =>
    rwa [dispatchCheck_of_not_serviceable ((lowestLine_eq_none_iff_not_serviceable s).1 hline)]
  | some i =>
    have hi : Chosen s i := (lowestLine_eq_some_iff_chosen s i).1 hline
    have hne : j ≠ i := fun e => hj (e ▸ hi)
    rw [dispatchCheck_of_chosen hi, interruptEntry_is, h, decide_eq_true hne, Bool.true_and]

theorem beforeFetch_keeps_pending {s : State} {input : CycleInput} {j : Index} (h : s.is.getLsbD j = true)
    (hj : ¬ Chosen (State.applyEvents input.events s) j) : (s.beforeFetch input).is.getLsbD j = true := by
  have hevents := State.applyEvents_is input.events s j h
  rcases beforeFetch_cases s input with e | e <;> rw [e]
  · exact hevents
  · exact timerTick_keeps_pending input.tick (dispatchCheck_keeps_pending hevents hj)

theorem dispatchCheck_of_im_zero {s : State} (h : s.im = 0) : s.dispatchCheck = s := by
  apply dispatchCheck_of_not_serviceable
  rintro i ⟨henabled, -⟩
  simp [h] at henabled

/-! ### Instructions and the host -/

theorem exec_int_keeps_pending {a : Byte} {s t : State} {j : Index} (h : exec (.int a) s = .next t)
    (hj : s.is.getLsbD j = true) : t.is.getLsbD j = true := by
  rcases exec_cases h with ⟨c, -, rfl⟩ | ⟨-, he⟩ | ⟨_, hb, -⟩ | ⟨_, hb, -⟩
  · exact hj
  · obtain ⟨line, p, rfl⟩ := effect_int_eq_ok he
    exact request_keeps_pending line hj
  · cases hb
  · cases hb

/-- An instruction other than INT that writes R6 is the only one that can clear a pending bit. -/
theorem exec_clears_pending {i : Instr} {s t : State} {j : Index} (h : exec i s = .next t)
    (hs : s.is.getLsbD j = true) (ht : t.is.getLsbD j = false) : 6 ∈ writtenRegs i ∧ ∀ a, i ≠ .int a := by
  refine ⟨?_, ?_⟩
  · by_contra hframe
    have his : t.is = s.is := exec_reg_other (j := Config.isIndex) h hframe
    rw [his, hs] at ht
    cases ht
  · rintro a rfl
    rw [exec_int_keeps_pending h hs] at ht
    cases ht

theorem is_congr {s t : State} (h : t.regs = s.regs) : t.is = s.is :=
  congrArg (fun r : Vector Byte 8 => r[Config.isIndex]) h

/-- A host move that clears a pending bit is a reset. -/
theorem hostStep_clears_pending {s t : State} {j : Index} (h : s.hostStep = .next t) (hs : s.is.getLsbD j = true)
    (ht : t.is.getLsbD j = false) : ∃ rest, s.host = .reset :: rest := by
  rcases hostStep_keeps_regs_fatal h with ⟨hregs, -⟩ | hreset
  · rw [is_congr hregs, hs] at ht
    cases ht
  · exact hreset

/-! ### The obligation -/

/-- Settles O51: each part of a step by the bits it can clear. -/
theorem pendingLinesWait : Obligations.PendingLinesWait := by
  refine ⟨fun s input j hs ht => ?_, fun i s t j h => exec_clears_pending h, fun s t j hrun h hs ht => ?_,
    fun s j => ⟨?_, request_of_pending⟩, fun s => dispatchCheck_of_im_zero⟩
  · by_contra hj
    rw [beforeFetch_keeps_pending hs hj] at ht
    cases ht
  · rw [step_of_not_running s hrun] at h
    exact hostStep_clears_pending h hs ht
  · rw [State.is_request, decide_eq_true rfl, Bool.or_true]

end Sys2Proof.Proofs
end

section
/-! Decoder and encoder (30_encoding.md R51 to R61): the opcode byte is joined from its fields and split into them again,
the operand fetch takes the operand bytes, and the code tables name the instruction whose fields they are keyed by. -/

namespace Sys2Proof.Proofs

open Sys2Proof.Machine Sys2Proof.Claims

/-! ### The opcode byte -/

theorem split_join (f : Fields) : split (join f) = f := by
  have hall : ∀ (aa : BitVec 2) (b c : Bool) (d : Nibble), split (join ⟨aa, b, c, d⟩) = ⟨aa, b, c, d⟩ := by decide
  exact hall f.aa f.b f.c f.dddd

theorem join_split : ∀ ir : Byte, join (split ir) = ir := by decide

/-- The fields that get past the two refusals of step 4: neither AA = 3 nor both flags (30_encoding.md R59, R60). -/
def legalFields (f : Fields) : Bool := f.aa != 3 && !(f.b && f.c)

theorem legalFields_iff (f : Fields) : legalFields f = true ↔ f.aa ≠ 3 ∧ (f.b && f.c) = false := by
  rw [legalFields, Bool.and_eq_true, bne_iff_ne, Bool.not_eq_true']

theorem legalFields_fields (i : Instr) : legalFields i.fields = true := by
  cases i <;> rfl

/-! ### The operand bytes -/

/-- The operand bytes are the first AA of the two that the tables are given; one that is not fetched is 0. -/
theorem takeOperands_operands (i : Instr) (rest : List Byte) :
    takeOperands i.fields.aa (i.operands ++ rest) = some (i.operands.getD 0 0, i.operands.getD 1 0, rest) := by
  cases i <;> rfl

/-- What the operand fetch took stands at the front of the bytes, in order (43_cycle.md R130). -/
theorem takeOperands_eq_some {aa : BitVec 2} {bytes rest : List Byte} {a b : Byte}
    (h : takeOperands aa bytes = some (a, b, rest)) : bytes = [a, b].take aa.toNat ++ rest := by
  unfold takeOperands at h
  split at h <;> cases h <;> simp [*]

/-- The operand fetch fails where the bytes end before the operands do. -/
theorem takeOperands_of_short {aa : BitVec 2} {bytes : List Byte} (haa : aa ≠ 3) (h : bytes.length < aa.toNat) :
    takeOperands aa bytes = none := by
  have hle : aa.toNat ≤ 2 := by bv_omega
  by_contra hsome
  obtain ⟨⟨a, b, rest⟩, htake⟩ := Option.ne_none_iff_exists'.1 hsome
  have hlen := congrArg List.length (takeOperands_eq_some htake)
  simp only [List.length_append, List.length_take, List.length_cons, List.length_nil] at hlen
  omega

/-- The operand fetch succeeds where the bytes are enough; AA = 3 is refused before it. -/
theorem takeOperands_of_length {aa : BitVec 2} {bytes : List Byte} (haa : aa ≠ 3) (h : aa.toNat ≤ bytes.length) :
    ∃ a b rest, takeOperands aa bytes = some (a, b, rest) := by
  have hle : aa.toNat ≤ 2 := by bv_omega
  unfold takeOperands
  generalize aa.toNat = n at *
  match n, bytes with
  | 0, bytes => exact ⟨0, 0, bytes, rfl⟩
  | 1, a :: tail => exact ⟨a, 0, tail, rfl⟩
  | 2, a :: b :: tail => exact ⟨a, b, tail, rfl⟩

/-! ### The code tables -/

/-- The instruction's own fields select its row of the code tables (30_encoding.md R53, R55). -/
theorem lookup_fields (i : Instr) : lookup i.fields (i.operands.getD 0 0) (i.operands.getD 1 0) = .ok i := by
  cases i <;> rfl

/-- `i` is the row of the opcode map with the fields `f`, and its operands are the first AA of `a` and `b`. -/
def RowOf (f : Fields) (a b : Byte) (i : Instr) : Prop := i.fields = f ∧ i.operands = [a, b].take f.aa.toNat

/-- What a lookup of the fields `f` may answer: the row with these fields, or a refusal that is the cause `Decode`. -/
def RowOrDecode (f : Fields) (a b : Byte) (r : Except DecodeError Instr) : Prop :=
  (∃ i, r = .ok i ∧ RowOf f a b i) ∨ ∃ e, r = .error e ∧ causeOf e = .decode

theorem rowOrDecode_withCount {n aa : BitVec 2} {b c : Bool} {code d : Nibble} {p q : Byte} {i : Instr}
    (hcode : code.toNat = d.toNat) (hrow : RowOf ⟨n, b, c, d⟩ p q i) :
    RowOrDecode ⟨aa, b, c, code⟩ p q (withCount n aa i) := by
  unfold withCount
  split
  · rw [BitVec.eq_of_toNat_eq hcode, ‹aa = n›]
    exact .inl ⟨i, rfl, hrow⟩
  · exact .inr ⟨_, rfl, rfl⟩

theorem rowOrDecode_aluTable (aa : BitVec 2) (code : Nibble) (a b : Byte) :
    RowOrDecode ⟨aa, false, true, code⟩ a b (aluTable aa code a b) := by
  unfold aluTable
  split
  case h_15 => exact .inr ⟨_, rfl, rfl⟩
  all_goals exact rowOrDecode_withCount ‹_› ⟨rfl, rfl⟩

theorem rowOrDecode_flowTable (aa : BitVec 2) (code : Nibble) (a b : Byte) :
    RowOrDecode ⟨aa, true, false, code⟩ a b (flowTable aa code a) := by
  unfold flowTable
  split
  case h_12 => exact .inr ⟨_, rfl, rfl⟩
  all_goals exact rowOrDecode_withCount ‹_› ⟨rfl, rfl⟩

/-- Code 0 takes every operand count (30_encoding.md R58 (b)): its row is the no-op of that length. -/
theorem rowOrDecode_nonFlowTable (aa : BitVec 2) (code : Nibble) (a b : Byte) :
    RowOrDecode ⟨aa, false, false, code⟩ a b (nonFlowTable aa code a b) := by
  unfold nonFlowTable
  split
  case h_1 hcode =>
    have hzero : code = 0 := BitVec.eq_of_toNat_eq hcode
    subst hzero
    split
    · exact .inl ⟨_, rfl, by subst aa; exact ⟨rfl, rfl⟩⟩
    · split
      · exact .inl ⟨_, rfl, by subst aa; exact ⟨rfl, rfl⟩⟩
      · exact rowOrDecode_withCount rfl ⟨rfl, rfl⟩
  case h_10 => exact .inr ⟨_, rfl, rfl⟩
  all_goals exact rowOrDecode_withCount ‹_› ⟨rfl, rfl⟩

/-- Everything the lookup can answer: no code names an instruction of other fields. -/
theorem rowOrDecode_lookup (f : Fields) (a b : Byte) : RowOrDecode f a b (lookup f a b) := by
  obtain ⟨aa, flow, alu, code⟩ := f
  cases flow <;> cases alu
  · exact rowOrDecode_nonFlowTable aa code a b
  · exact rowOrDecode_aluTable aa code a b
  · exact rowOrDecode_flowTable aa code a b
  · exact .inr ⟨_, rfl, rfl⟩

/-! ### The opcode map as a list of instructions -/

/-- One instruction per row of the opcode map, in the map's order, on the operand bytes `a` and `b`. -/
def mappedInstrs (a b : Byte) : List Instr :=
  [.nop, .hlt, .ret, .iret, .nop1 a, .push a, .pop a, .prn a, .pra a, .inc a, .dec a, .not a, .call a, .int a, .jmp a,
   .jeq a, .jne a, .jgt a, .jlt a, .jle a, .jge a, .nop2 a b, .ldi a b, .ld a b, .st a b, .add a b, .sub a b, .mul a b,
   .div a b, .mod a b, .cmp a b, .and a b, .or a b, .xor a b, .shl a b, .shr a b]

theorem map_join_mappedInstrs (a b : Byte) : (mappedInstrs a b).map (fun i => join i.fields) = opcodeBytes := by
  have hsplit : (mappedInstrs a b).map Instr.fields = opcodeBytes.map split := rfl
  calc (mappedInstrs a b).map (fun i => join i.fields)
      = ((mappedInstrs a b).map Instr.fields).map join := List.map_map.symm
    _ = opcodeBytes.map (fun ir => join (split ir)) := by rw [hsplit, List.map_map]; rfl
    _ = opcodeBytes := by simp only [join_split, List.map_id']

theorem operands_of_mem_mappedInstrs {a b : Byte} {i : Instr} (h : i ∈ mappedInstrs a b) :
    i.operands = [a, b].take i.fields.aa.toNat := by
  have hmap : (mappedInstrs a b).map Instr.operands =
      (mappedInstrs a b).map (fun i => [a, b].take i.fields.aa.toNat) := rfl
  exact List.map_inj_left.1 hmap i h

theorem mem_mappedInstrs (i : Instr) : i ∈ mappedInstrs (i.operands.getD 0 0) (i.operands.getD 1 0) := by
  cases i <;> simp [mappedInstrs, Instr.operands]

theorem opcode_mem_opcodeBytes (i : Instr) : join i.fields ∈ opcodeBytes := by
  rw [← map_join_mappedInstrs (i.operands.getD 0 0) (i.operands.getD 1 0)]
  exact List.mem_map_of_mem (mem_mappedInstrs i)

theorem exists_fields_of_mem_opcodeBytes {ir : Byte} (a b : Byte) (h : ir ∈ opcodeBytes) :
    ∃ i ∈ mappedInstrs a b, split ir = i.fields := by
  rw [← map_join_mappedInstrs a b] at h
  obtain ⟨i, hi, rfl⟩ := List.mem_map.1 h
  exact ⟨i, hi, split_join i.fields⟩

/-- A byte of the map gets past step 4 and announces at most two operand bytes. -/
theorem split_aa_of_mem_opcodeBytes {ir : Byte} (h : ir ∈ opcodeBytes) :
    (split ir).aa ≠ 3 ∧ (split ir).aa.toNat ≤ 2 := by
  obtain ⟨i, -, hfields⟩ := exists_fields_of_mem_opcodeBytes 0 0 h
  have haa : (split ir).aa ≠ 3 := hfields ▸ ((legalFields_iff _).1 (legalFields_fields i)).1
  exact ⟨haa, by bv_omega⟩

/-- A byte of the map followed by enough operand bytes is the encoding of an instruction. -/
theorem exists_encode_of_mem_opcodeBytes {ir : Byte} {bytes : List Byte} (hir : ir ∈ opcodeBytes)
    (hlen : (split ir).aa.toNat ≤ bytes.length) : ∃ i rest, ir :: bytes = encode i ++ rest := by
  obtain ⟨a, b, rest, htake⟩ := takeOperands_of_length (split_aa_of_mem_opcodeBytes hir).1 hlen
  obtain ⟨i, hi, hfields⟩ := exists_fields_of_mem_opcodeBytes a b hir
  refine ⟨i, rest, ?_⟩
  rw [encode, operands_of_mem_mappedInstrs hi, ← hfields, join_split, takeOperands_eq_some htake, List.cons_append]

/-! ### The decoder -/

/-- Step 4's refusals (30_encoding.md R59, R60). -/
theorem decode_of_illegal {ir : Byte} (h : legalFields (split ir) = false) (bytes : List Byte) :
    ∃ e, decode (ir :: bytes) = .error e ∧ causeOf e = .decode := by
  unfold decode
  by_cases haa : (split ir).aa = 3
  · exact ⟨.operandCount3, if_pos haa, rfl⟩
  · have hflags : ((split ir).b && (split ir).c) = true := by
      rwa [legalFields, bne_iff_ne.2 haa, Bool.true_and, Bool.not_eq_false'] at h
    exact ⟨.bothFlags, by simp only [if_neg haa, if_pos hflags], rfl⟩

/-- Bytes that end before the operands do (43_cycle.md R130). -/
theorem decode_of_short {ir : Byte} {bytes : List Byte} (h : legalFields (split ir) = true)
    (hlen : bytes.length < (split ir).aa.toNat) : decode (ir :: bytes) = .error .operandMissing := by
  obtain ⟨haa, hflags⟩ := (legalFields_iff _).1 h
  simp only [decode, if_neg haa, hflags, Bool.false_eq_true, if_false, takeOperands_of_short haa hlen]

/-- Past the operand fetch the decoder is the lookup (43_cycle.md R131). -/
theorem decode_of_takeOperands {ir a b : Byte} {bytes rest : List Byte} (h : legalFields (split ir) = true)
    (htake : takeOperands (split ir).aa bytes = some (a, b, rest)) :
    decode (ir :: bytes) = (lookup (split ir) a b).map (·, rest) := by
  obtain ⟨haa, hflags⟩ := (legalFields_iff _).1 h
  simp only [decode, if_neg haa, hflags, Bool.false_eq_true, if_false, htake]
  cases lookup (split ir) a b <;> rfl

/-- Settles O3: the split undoes the join, the operand fetch takes the operand bytes, and the tables hold the row. -/
theorem decodeInvertsEncode : Obligations.DecodeInvertsEncode := by
  intro i rest
  have hsplit := split_join i.fields
  have hlegal : legalFields (split (join i.fields)) = true := by rw [hsplit, legalFields_fields]
  have htake := takeOperands_operands i rest
  rw [← hsplit] at htake
  rw [encode, List.cons_append, decode_of_takeOperands hlegal htake, hsplit, lookup_fields]
  rfl

/-- Everything the decoder can answer on bytes that are there, in the order of its checks (60_exceptions.md R144). -/
theorem decode_cases (ir : Byte) (bytes : List Byte) :
    (legalFields (split ir) = false ∧ ∃ e, decode (ir :: bytes) = .error e ∧ causeOf e = .decode) ∨
    (legalFields (split ir) = true ∧ bytes.length < (split ir).aa.toNat ∧
      decode (ir :: bytes) = .error .operandMissing) ∨
    (legalFields (split ir) = true ∧ (split ir).aa.toNat ≤ bytes.length ∧ ir ∉ opcodeBytes ∧
      ∃ e, decode (ir :: bytes) = .error e ∧ causeOf e = .decode) ∨
    (legalFields (split ir) = true ∧ (split ir).aa.toNat ≤ bytes.length ∧ ir ∈ opcodeBytes ∧
      ∃ i rest, decode (ir :: bytes) = .ok (i, rest) ∧ ir :: bytes = encode i ++ rest) := by
  cases hlegal : legalFields (split ir) with
  | false => exact .inl ⟨rfl, decode_of_illegal hlegal bytes⟩
  | true =>
    rcases Nat.lt_or_ge bytes.length (split ir).aa.toNat with hshort | hlen
    · exact .inr (.inl ⟨rfl, hshort, decode_of_short hlegal hshort⟩)
    obtain ⟨a, b, rest, htake⟩ := takeOperands_of_length ((legalFields_iff _).1 hlegal).1 hlen
    have hdecode := decode_of_takeOperands hlegal htake
    rcases rowOrDecode_lookup (split ir) a b with ⟨i, hi, hfields, hoperands⟩ | ⟨e, he, hcause⟩
    · have hbytes : ir :: bytes = encode i ++ rest := by
        rw [encode, hfields, join_split, hoperands, takeOperands_eq_some htake, List.cons_append]
      have hmem : ir ∈ opcodeBytes := by
        rw [← join_split ir, ← hfields]
        exact opcode_mem_opcodeBytes i
      rw [hi] at hdecode
      exact .inr (.inr (.inr ⟨rfl, hlen, hmem, i, rest, hdecode, hbytes⟩))
    · rw [he] at hdecode
      have hmem : ir ∉ opcodeBytes := by
        intro hmem
        obtain ⟨i, rest, hbytes⟩ := exists_encode_of_mem_opcodeBytes hmem hlen
        rw [hbytes, decodeInvertsEncode] at hdecode
        cases hdecode
      exact .inr (.inr (.inl ⟨rfl, hlen, hmem, e, hdecode, hcause⟩))

theorem decode_eq_ok {ir : Byte} {bytes rest : List Byte} {i : Instr} (h : decode (ir :: bytes) = .ok (i, rest)) :
    ir ∈ opcodeBytes ∧ ir :: bytes = encode i ++ rest := by
  rcases decode_cases ir bytes with ⟨-, e, he, -⟩ | ⟨-, -, he⟩ | ⟨-, -, -, e, he, -⟩ | ⟨-, -, hmem, j, tail, hok, hbytes⟩
  · cases h.symm.trans he
  · cases h.symm.trans he
  · cases h.symm.trans he
  · cases h.symm.trans hok
    exact ⟨hmem, hbytes⟩

/-! ### The obligations on decoder and encoder -/

/-- Settles O4: the only bytes the decoder answers an instruction on are that instruction's encoding and what follows. -/
theorem decodedBytesAreTheEncoding : Obligations.DecodedBytesAreTheEncoding := by
  intro bytes i rest h
  cases bytes with
  | nil => cases h
  | cons ir bytes => exact (decode_eq_ok h).2

/-- Settles O6: what decodes has an opcode of the map, and a byte of the map on any two operands is an encoding. -/
theorem onlyMappedOpcodesDecode : Obligations.OnlyMappedOpcodesDecode := by
  refine ⟨rfl, fun ir a b => ⟨?_, fun hmem => ?_⟩⟩
  · rintro ⟨i, rest, h⟩
    exact (decode_eq_ok h).1
  · obtain ⟨i, rest, hbytes⟩ :=
      exists_encode_of_mem_opcodeBytes (bytes := [a, b]) hmem (split_aa_of_mem_opcodeBytes hmem).2
    exact ⟨i, rest, hbytes ▸ decodeInvertsEncode i rest⟩

/-- An encoding by the opcode byte that splits into the instruction's fields. -/
theorem encode_of_split {i : Instr} {ir : Byte} {operands : List Byte} (h : split ir = i.fields)
    (hoperands : i.operands = operands) : encode i = ir :: operands := by
  rw [encode, ← h, join_split, hoperands]

/-- Settles O1: each opcode byte of the map splits into the fields of its row. -/
theorem encodingsMatchOpcodeMap : Obligations.EncodingsMatchOpcodeMap := by
  intro a b
  refine ⟨?_, ?_, ?_, ?_, ?_, ?_, ?_, ?_, ?_, ?_, ?_, ?_, ?_, ?_, ?_, ?_, ?_, ?_, ?_, ?_, ?_, ?_, ?_, ?_, ?_, ?_, ?_, ?_,
    ?_, ?_, ?_, ?_, ?_, ?_, ?_, ?_⟩ <;> exact encode_of_split rfl rfl

/-- Settles O2: each word is the encoding of its instruction, which decodes to it. -/
theorem specWordsDecode : Obligations.SpecWordsDecode :=
  ⟨decodeInvertsEncode (.add 0 1) [], decodeInvertsEncode (.ldi 0 8) [], decodeInvertsEncode (.jeq 2) [],
    decodeInvertsEncode .iret [], decodeInvertsEncode .hlt []⟩

end Sys2Proof.Proofs
end

section
/-! What an instruction can change, field by field (20_memory.md and 10_state.md, the access tables of section 1): the
frame of its effect, then of `exec` with its end and its fatal errors. -/

namespace Sys2Proof.Proofs

open Sys2Proof.Machine Sys2Proof.Claims

/-! ### The frame of an effect -/

/-- What the effect of `i` in `s` may change: FL, the PC, the running flag, the output and memory, each only by the
instructions that have it in the access tables. -/
structure EffectFrame (i : Instr) (s t : State) : Prop where
  fl : writesFlags i = false → t.fl = s.fl
  pc : i.fields.b = false → t.pc = s.pc
  running : i ≠ .hlt → t.running = s.running
  out : t.out = s.out ∨ (prints i = true ∧ ∃ r, t.out = s.out ++ [r])
  mem : t.mem = s.mem ∨ ∃ a v, storedAt i s = some a ∧ t.mem = Memory.put s.mem a.toNat v

/-- Most instructions change the registers only, and a flow-control instruction the PC. -/
theorem effectFrame_of_regs_pc {i : Instr} {s : State} {r : Vector Byte 8} {p : Byte}
    (hp : i.fields.b = false → p = s.pc) : EffectFrame i s { s with regs := r, pc := p } where
  fl _ := rfl
  pc := hp
  running _ := rfl
  out := .inl rfl
  mem := .inl rfl

theorem effectFrame_of_setReg {i : Instr} {s t : State} (h : ∃ k v, t = s.setReg k v) : EffectFrame i s t := by
  obtain ⟨k, v, rfl⟩ := h
  exact effectFrame_of_regs_pc fun _ => rfl

/-- The address a push stores to, in terms of the state before it. -/
theorem push_mem_eq_put (s : State) (v : Byte) : (s.push v).mem = Memory.put s.mem (s.sp - 1).toNat v := by
  rw [State.push_mem, State.sp_setReg, if_pos rfl]

theorem effect_frame {i : Instr} {s t : State} (h : effect i s = .ok t) : EffectFrame i s t := by
  cases i with
  | nop | nop1 | nop2 =>
    cases h
    exact effectFrame_of_regs_pc fun _ => rfl
  | hlt =>
    cases h
    exact ⟨fun _ => rfl, fun _ => rfl, fun hne => absurd rfl hne, .inl rfl, .inl rfl⟩
  | ret =>
    cases h
    exact effectFrame_of_regs_pc nofun
  | iret =>
    have ht : s.interruptReturn = t := Except.ok.inj h
    rw [← ht]
    exact ⟨nofun, nofun, fun _ => s.interruptReturn_running, .inl s.interruptReturn_out, .inl s.interruptReturn_mem⟩
  | add a b | sub a b | mul a b | div a b | mod a b | and a b | or a b | xor a b | shl a b | shr a b =>
    exact effectFrame_of_setReg (binaryEffect_eq_ok h)
  | inc a | dec a | not a => exact effectFrame_of_setReg (unaryEffect_eq_ok h)
  | ldi a imm =>
    obtain ⟨k, -, rfl⟩ := State.writeReg_eq_ok h
    exact effectFrame_of_setReg ⟨k, imm, rfl⟩
  | ld a b =>
    obtain ⟨_, -, h⟩ := bind_eq_ok h
    obtain ⟨v, -, h⟩ := bind_eq_ok h
    obtain ⟨k, -, rfl⟩ := State.writeReg_eq_ok h
    exact effectFrame_of_setReg ⟨k, v, rfl⟩
  | pop a =>
    obtain ⟨_, -, h⟩ := bind_eq_ok h
    cases h
    exact effectFrame_of_regs_pc fun _ => rfl
  | st a b =>
    obtain ⟨addr, haddr, h⟩ := bind_eq_ok h
    obtain ⟨v, -, h⟩ := bind_eq_ok h
    rw [memWrite_eq_ok h]
    have hstored : storedAt (.st a b) s = some addr := by rw [storedAt, haddr]; rfl
    exact ⟨fun _ => rfl, fun _ => rfl, fun _ => rfl, .inl rfl, .inr ⟨addr, v, hstored, rfl⟩⟩
  | push a =>
    obtain ⟨v, -, h⟩ := bind_eq_ok h
    cases h
    exact ⟨fun _ => rfl, fun _ => rfl, fun _ => rfl, .inl rfl, .inr ⟨s.sp - 1, v, rfl, push_mem_eq_put s v⟩⟩
  | call a =>
    obtain ⟨_, -, h⟩ := bind_eq_ok h
    obtain ⟨next, -, h⟩ := bind_eq_ok h
    cases h
    exact ⟨fun _ => rfl, nofun, fun _ => rfl, .inl rfl, .inr ⟨s.sp - 1, next.pc, rfl, push_mem_eq_put s next.pc⟩⟩
  | cmp a b =>
    obtain ⟨_, -, h⟩ := bind_eq_ok h
    obtain ⟨_, -, h⟩ := bind_eq_ok h
    cases h
    exact ⟨nofun, fun _ => rfl, fun _ => rfl, .inl rfl, .inl rfl⟩
  | prn a | pra a =>
    obtain ⟨_, -, h⟩ := bind_eq_ok h
    cases h
    exact ⟨fun _ => rfl, fun _ => rfl, fun _ => rfl, .inr ⟨rfl, _, rfl⟩, .inl rfl⟩
  | jmp a =>
    obtain ⟨_, -, h⟩ := bind_eq_ok h
    cases h
    exact effectFrame_of_regs_pc nofun
  | jeq a | jne a | jgt a | jlt a | jle a | jge a =>
    obtain ⟨_, rfl⟩ := jumpEffect_eq_ok h
    exact effectFrame_of_regs_pc nofun
  | int a =>
    obtain ⟨_, _, rfl⟩ := effect_int_eq_ok h
    exact effectFrame_of_regs_pc nofun

/-! ### The frame of an instruction with its end -/

/-- An instruction that ended left, but for the PC and the status, the state before it or its effect. -/
theorem exec_eq_effect_or_self {i : Instr} {s t : State} (h : exec i s = .next t) :
    ∃ u pc running fatal, (u = s ∨ effect i s = .ok u) ∧
      t = { u with pc := pc, running := running, fatal := fatal } := by
  rcases exec_cases h with ⟨c, -, rfl⟩ | ⟨-, he⟩ | ⟨u, -, he, -, rfl⟩ | ⟨u, -, he, -, rfl⟩
  · exact ⟨s, _, _, _, .inl rfl, rfl⟩
  · exact ⟨t, _, _, _, .inr he, rfl⟩
  · exact ⟨u, _, _, _, .inr he, rfl⟩
  · exact ⟨u, _, _, _, .inr he, rfl⟩

theorem exec_mem {i : Instr} {s t : State} (h : exec i s = .next t) :
    t.mem = s.mem ∨ ∃ a v, storedAt i s = some a ∧ t.mem = Memory.put s.mem a.toNat v := by
  obtain ⟨u, _, _, _, rfl | he, rfl⟩ := exec_eq_effect_or_self h
  · exact .inl rfl
  · exact (effect_frame he).mem

theorem exec_out {i : Instr} {s t : State} (h : exec i s = .next t) :
    t.out = s.out ∨ (prints i = true ∧ ∃ r, t.out = s.out ++ [r]) := by
  obtain ⟨u, _, _, _, rfl | he, rfl⟩ := exec_eq_effect_or_self h
  · exact .inl rfl
  · exact (effect_frame he).out

/-- No instruction touches the inputs, the host's port or the lifecycle. -/
theorem exec_control {i : Instr} {s t : State} (h : exec i s = .next t) :
    t.inputs = s.inputs ∧ t.drawn = s.drawn ∧ t.host = s.host ∧ t.life = s.life := by
  obtain ⟨u, _, _, _, rfl | he, rfl⟩ := exec_eq_effect_or_self h
  · exact ⟨rfl, rfl, rfl, rfl⟩
  · have hparts := effect_parts he
    have hinputs := congrArg State.inputs hparts
    have hdrawn := congrArg State.drawn hparts
    have hhost := congrArg State.host hparts
    have hlife := congrArg State.life hparts
    exact ⟨hinputs, hdrawn, hhost, hlife⟩

/-- An instruction other than HLT keeps running flag and fatal status, or ends the run with a fatal error. -/
theorem exec_status {i : Instr} {s t : State} (hi : i ≠ .hlt) (h : exec i s = .next t) :
    (t.running = s.running ∧ t.fatal = s.fatal) ∨ (t.running = false ∧ ∃ c, t.fatal = some c) := by
  rcases exec_cases h with ⟨c, -, rfl⟩ | ⟨-, he⟩ | ⟨u, -, he, -, rfl⟩ | ⟨u, -, -, -, rfl⟩
  · exact .inr ⟨rfl, c, rfl⟩
  · exact .inl ⟨(effect_frame he).running hi, effect_fatal he⟩
  · exact .inl ⟨(effect_frame he).running hi, effect_fatal (t := u) he⟩
  · exact .inr ⟨rfl, .pcRange, rfl⟩

theorem exec_hlt_status {s t : State} (h : exec .hlt s = .next t) :
    t.running = false ∧ (t.fatal = s.fatal ∨ t.fatal = some .pcRange) := by
  rcases exec_cases h with ⟨c, he, -⟩ | ⟨hb, -⟩ | ⟨u, -, he, -, rfl⟩ | ⟨u, -, -, -, rfl⟩
  · cases he
  · cases hb
  · cases he
    exact ⟨rfl, .inl rfl⟩
  · exact ⟨rfl, .inr rfl⟩

/-! ### The obligations on frames -/

/-- Settles O34: memory after an instruction is memory before it, or one write to it at the stored address. -/
theorem instructionsStoreOnlyAtTheirAddress : Obligations.InstructionsStoreOnlyAtTheirAddress := by
  intro i s t h b hb
  rcases exec_mem h with hmem | ⟨a, v, ha, hmem⟩
  · rw [hmem]
  · rw [hmem, Memory.get_put, if_neg (hb a ha)]

/-- Settles O35: the register frame of `exec`, proved with the stack. -/
theorem instructionsWriteOnlyTheirRegisters : Obligations.InstructionsWriteOnlyTheirRegisters :=
  fun _ _ _ h _ hj => exec_reg_other h hj

/-- Settles O36: the end of an instruction and a fatal error leave FL, so the frame is the effect's. -/
theorem onlyCompareAndReturnWriteFlags : Obligations.OnlyCompareAndReturnWriteFlags := by
  intro i s t h hi
  obtain ⟨u, _, _, _, rfl | he, rfl⟩ := exec_eq_effect_or_self h
  · rfl
  · exact (effect_frame he).fl hi

/-- Settles O38: field by field, with HLT by itself. -/
theorem instructionsLeaveControlState : Obligations.InstructionsLeaveControlState := by
  intro i s t h
  obtain ⟨hinputs, hdrawn, hhost, hlife⟩ := exec_control h
  refine ⟨hinputs, hdrawn, hhost, hlife, fun hi => ?_, fun hi => exec_status hi h, ?_⟩
  · rcases exec_out h with hout | ⟨hprints, -⟩
    · exact hout
    · cases hi.symm.trans hprints
  · rintro rfl
    exact exec_hlt_status h

/-! ### How an instruction ends -/

/-- Settles O39: without a fatal error step 7 has moved the PC, which no effect of such an instruction had changed. -/
theorem sequentialInstructionsAdvanceByLength : Obligations.SequentialInstructionsAdvanceByLength := by
  intro i s t _ h ht hb
  rcases exec_cases h with ⟨c, -, rfl⟩ | ⟨hflow, -⟩ | ⟨u, -, he, hpc, rfl⟩ | ⟨u, -, -, -, rfl⟩
  · cases ht
  · cases hb.symm.trans hflow
  · have hu : u.pc = s.pc := (effect_frame he).pc hb
    change (u.pc + BitVec.ofNat 8 i.size).toNat = s.pc.toNat + i.size
    rw [hu] at hpc ⊢
    rw [BitVec.toNat_add, BitVec.toNat_ofNat, Nat.add_mod_mod, Nat.mod_eq_of_lt (by omega)]
  · cases ht

/-- Settles O40: an effect sets no fatal status, so it was raised instead of the effect or by step 7 after it. -/
theorem fatalErrorsArePrecise : Obligations.FatalErrorsArePrecise := by
  intro i s t c hs h ht
  rcases exec_cases h with ⟨d, -, rfl⟩ | ⟨-, he⟩ | ⟨u, -, he, -, rfl⟩ | ⟨u, hb, he, hpc, rfl⟩
  · cases ht
    exact ⟨rfl, .inl rfl⟩
  · cases ht.symm.trans ((effect_fatal he).trans hs)
  · cases ht.symm.trans ((effect_fatal (t := u) he).trans hs)
  · cases ht
    have hu : u.pc = s.pc := (effect_frame he).pc hb
    exact ⟨rfl, .inr ⟨rfl, hb, hu, hu ▸ hpc⟩⟩

end Sys2Proof.Proofs
end

section
/-! The invariant and the output along a step: canonical memory, lifecycle, fatal status and output record by record, for
steps 0 to 2, for the fetch and the instruction, and for the host's commands. -/

namespace Sys2Proof.Proofs

open Sys2Proof.Machine Sys2Proof.Claims

/-! ### Steps 0 to 2 -/

/-- The dispatch check changes registers, memory and the PC only (60_exceptions.md R149). -/
theorem dispatchCheck_parts (s : State) : { s.dispatchCheck with regs := s.regs, mem := s.mem, pc := s.pc } = s := by
  rcases s.dispatchCheck_cases with ⟨-, e⟩ | ⟨i, -, -, e⟩ <;> rw [e]
  exact s.interruptEntry_parts i

theorem dispatchCheck_life (s : State) : s.dispatchCheck.life = s.life := by
  have h := congrArg State.life (dispatchCheck_parts s)
  exact h

theorem dispatchCheck_out (s : State) : s.dispatchCheck.out = s.out := by
  have h := congrArg State.out (dispatchCheck_parts s)
  exact h

theorem beforeFetch_life (s : State) (input : CycleInput) : (s.beforeFetch input).life = s.life := by
  rcases beforeFetch_cases s input with e | e
  · rw [e, State.applyEvents_life]
  · rw [e, State.timerTick_life, dispatchCheck_life, State.applyEvents_life]

theorem beforeFetch_out (s : State) (input : CycleInput) : (s.beforeFetch input).out = s.out := by
  rcases beforeFetch_cases s input with e | e
  · rw [e, State.applyEvents_out]
  · rw [e, State.timerTick_out, dispatchCheck_out, State.applyEvents_out]

/-! ### Canonical memory -/

/-- A write at an address held in a byte keeps the canonical form. -/
theorem wf_put_byte {m : Memory} (a v : Byte) (h : Memory.wf m = true) : Memory.wf (Memory.put m a.toNat v) = true :=
  Memory.wf_put m a.toNat v a.isLt h

theorem wf_foldl_push (vs : List Byte) {s : State} (h : Memory.wf s.mem = true) :
    Memory.wf (vs.foldl State.push s).mem = true := by
  induction vs generalizing s with
  | nil => exact h
  | cons v vs ih => exact ih (wf_put_byte _ v h)

theorem wf_applyEvents (es : List Event) {s : State} (h : Memory.wf s.mem = true) :
    Memory.wf (State.applyEvents es s).mem = true := by
  induction es generalizing s with
  | nil => exact h
  | cons e es ih =>
    cases e with
    | key v => exact ih (wf_put_byte Config.keyCell v h)
    | cancel | stop => exact h

theorem wf_dispatchCheck {s : State} (h : Memory.wf s.mem = true) : Memory.wf s.dispatchCheck.mem = true := by
  rcases s.dispatchCheck_cases with ⟨-, e⟩ | ⟨i, -, -, e⟩ <;> rw [e]
  · exact h
  · exact wf_foldl_push (s.acknowledge i).context (s := s.acknowledge i) h

theorem wf_beforeFetch {s : State} (input : CycleInput) (h : Memory.wf s.mem = true) :
    Memory.wf (s.beforeFetch input).mem = true := by
  have hevents := wf_applyEvents input.events h
  rcases beforeFetch_cases s input with e | e <;> rw [e]
  · exact hevents
  · rw [State.timerTick_mem]
    exact wf_dispatchCheck hevents

theorem wf_exec {i : Instr} {s t : State} (h : exec i s = .next t) (hs : Memory.wf s.mem = true) :
    Memory.wf t.mem = true := by
  rcases exec_mem h with hmem | ⟨a, v, -, hmem⟩ <;> rw [hmem]
  · exact hs
  · exact wf_put_byte a v hs

/-! ### The invariant -/

/-- A started machine is legal when its memory is canonical and it does not run with a fatal status. -/
theorem inv_of_started {s : State} (hwf : Memory.wf s.mem = true) (hlife : s.life = .started)
    (hfatal : s.running = true → s.fatal = none) : s.Inv :=
  ⟨hwf, fun hrun => ⟨hlife, hfatal hrun⟩, fun hne => absurd hlife hne⟩

/-- A machine that runs on after an instruction has the fatal status it had (60_exceptions.md R142). -/
theorem exec_fatal_of_running {i : Instr} {s t : State} (h : exec i s = .next t) (hrun : t.running = true) :
    t.fatal = s.fatal := by
  by_cases hi : i = .hlt
  · subst hi
    cases (exec_hlt_status h).1.symm.trans hrun
  · rcases exec_status hi h with ⟨-, hfatal⟩ | ⟨hstop, -⟩
    · exact hfatal
    · cases hstop.symm.trans hrun

theorem fetchAndExec_inv {s t : State} (hwf : Memory.wf s.mem = true) (hlife : s.life = .started)
    (hfatal : s.fatal = none) (h : fetchAndExec s = .next t) : t.Inv := by
  rcases fetchAndExec_cases s with ⟨i, _, -, e⟩ | ⟨err, -, e⟩ <;> rw [e] at h
  · obtain ⟨-, -, -, hl⟩ := exec_control h
    exact inv_of_started (wf_exec h hwf) (hl.trans hlife) fun hrun => (exec_fatal_of_running h hrun).trans hfatal
  · cases h
    exact inv_of_started hwf hlife nofun

/-- Settles O58: empty memory, not running, no fatal status. -/
theorem resetMeetsTheInvariant : Obligations.ResetMeetsTheInvariant := ⟨Memory.wf_nil, nofun, fun _ => rfl⟩

theorem hostLoad_inv {s : State} (image : List Byte) (hs : s.Inv) (hrun : s.running = false) (hlife : s.life = .reset) :
    (s.hostLoad image).Inv := by
  obtain ⟨hwf, -, hfatal⟩ := hs
  have hnone : s.fatal = none := hfatal (by rw [hlife]; nofun)
  unfold State.hostLoad
  split
  · exact ⟨Memory.wf_putAll _ 0 image ((Nat.zero_add _).le.trans ‹image.length ≤ Config.memSize›) hwf,
      fun h => absurd (hrun.symm.trans h) nofun, fun _ => hnone⟩
  · exact ⟨hwf, fun h => absurd (hrun.symm.trans h) nofun, fun _ => hnone⟩

/-- The host's commands keep the invariant: a run begins only from a loaded machine, which has no fatal status. -/
theorem hostStep_inv {s t : State} (hs : s.Inv) (hrun : s.running = false) (h : s.hostStep = .next t) : t.Inv := by
  rcases s.hostStep_cases with ⟨-, e⟩ | ⟨rest, -, e⟩ | ⟨image, rest, -, hlife, e⟩ | ⟨rest, -, hlife, e⟩ | ⟨c, e⟩
  · cases e.symm.trans h
    exact hs
  · cases e.symm.trans h
    exact resetMeetsTheInvariant
  · cases e.symm.trans h
    exact hostLoad_inv (s := { s with host := rest }) image hs hrun hlife
  · cases e.symm.trans h
    obtain ⟨hwf, -, hfatal⟩ := hs
    exact inv_of_started hwf rfl fun _ => hfatal (by rw [hlife]; nofun)
  · cases e.symm.trans h

/-- Settles O57: a host command by itself; of a cycle, steps 0 to 2 and then the instruction, on a started machine. -/
theorem stepsKeepTheInvariant : Obligations.StepsKeepTheInvariant := by
  intro s t hs h
  obtain ⟨hwf, hrunning, -⟩ := id hs
  have hwf' : Memory.wf (s.takeInput.2.beforeFetch s.takeInput.1).mem = true :=
    wf_beforeFetch _ (s.takeInput_mem ▸ hwf)
  rcases step_cases h with ⟨hrun, hhost⟩ | ⟨hrun, hstop, rfl⟩ | ⟨hrun, -, hfetch⟩
  · exact hostStep_inv hs hrun hhost
  · refine inv_of_started hwf' ?_ fun hgo => absurd (hstop.symm.trans hgo) nofun
    rw [beforeFetch_life, State.takeInput_life, (hrunning hrun).1]
  · refine fetchAndExec_inv hwf' ?_ ?_ hfetch
    · rw [beforeFetch_life, State.takeInput_life, (hrunning hrun).1]
    · rw [beforeFetch_fatal, State.takeInput_fatal, (hrunning hrun).2]

/-! ### The output -/

theorem fetchAndExec_out {s t : State} (h : fetchAndExec s = .next t) : t.out = s.out ∨ ∃ r, t.out = s.out ++ [r] := by
  rcases fetchAndExec_cases s with ⟨i, _, -, e⟩ | ⟨err, -, e⟩ <;> rw [e] at h
  · exact (exec_out h).imp_right And.right
  · cases h
    exact .inl rfl

theorem hostLoad_out (s : State) (image : List Byte) : (s.hostLoad image).out = s.out := by
  unfold State.hostLoad
  split <;> rfl

/-- Of the host's commands only the reset touches the output, which it empties. -/
theorem hostStep_out {s t : State} (h : s.hostStep = .next t) :
    t.out = s.out ∨ ∃ rest, s.host = .reset :: rest ∧ t.out = [] := by
  rcases s.hostStep_cases with ⟨-, e⟩ | ⟨rest, hh, e⟩ | ⟨image, rest, -, -, e⟩ | ⟨rest, -, -, e⟩ | ⟨c, e⟩
  · cases e.symm.trans h
    exact .inl rfl
  · cases e.symm.trans h
    exact .inr ⟨rest, hh, rfl⟩
  · cases e.symm.trans h
    exact .inl (hostLoad_out _ image)
  · cases e.symm.trans h
    exact .inl rfl
  · cases e.symm.trans h

/-- Settles O59: steps 0 to 2 print nothing, the instruction at most one record, and the host only empties the output. -/
theorem outputIsAppendOnly : Obligations.OutputIsAppendOnly := by
  intro s t h
  have hbefore : (s.takeInput.2.beforeFetch s.takeInput.1).out = s.out := by
    rw [beforeFetch_out, State.takeInput_out]
  rcases step_cases h with ⟨hrun, hhost⟩ | ⟨-, -, rfl⟩ | ⟨-, -, hfetch⟩
  · rcases hostStep_out hhost with hout | ⟨rest, hh, hout⟩
    · exact .inl hout
    · exact .inr (.inr ⟨hrun, rest, hh, hout⟩)
  · exact .inl hbefore
  · rw [← hbefore]
    exact (fetchAndExec_out hfetch).imp_right .inl

end Sys2Proof.Proofs
end

section
/-! Operands (10_state.md R12, R13): register operands that name a register and those that do not, the effect of every
instruction on named registers, and so when an instruction and a step answer. -/

namespace Sys2Proof.Proofs

open Sys2Proof.Machine Sys2Proof.Claims

/-! ### Register operands -/

@[simp] theorem regIndex_regByte (i : Index) : regIndex (regByte i) = .ok i := regIndex_ofNat i

@[simp] theorem readReg_regByte (s : State) (i : Index) : s.readReg (regByte i) = .ok (s.reg i) :=
  s.readReg_of_ok (regIndex_regByte i)

@[simp] theorem writeReg_regByte (s : State) (i : Index) (v : Byte) : s.writeReg (regByte i) v = .ok (s.setReg i v) :=
  s.writeReg_of_ok v (regIndex_regByte i)

theorem readReg_regByte_bind (s : State) (i : Index) (k : Byte → Except Cause State) :
    (s.readReg (regByte i) >>= k) = k (s.reg i) := by
  rw [readReg_regByte, bind_ok]

/-- An operand byte of 0..7 names a register. -/
theorem exists_regByte_of_isRegister {r : Byte} (h : Byte.isRegister r = true) : ∃ i, r = regByte i := by
  have hle : r.toNat ≤ 7 := of_decide_eq_true h
  refine ⟨⟨r.toNat, by omega⟩, ?_⟩
  rw [regByte, BitVec.ofNat_toNat, BitVec.setWidth_eq]

theorem regIndex_of_not_isRegister {r : Byte} (h : Byte.isRegister r = false) : regIndex r = .error .regRange := by
  have hgt : ¬ r.toNat ≤ 7 := of_decide_eq_false h
  exact dif_neg (by omega)

theorem exists_regByte_of_all_one {a : Byte} (h : [a].all Byte.isRegister = true) : ∃ i, a = regByte i :=
  exists_regByte_of_isRegister (List.all_eq_true.1 h a List.mem_cons_self)

theorem exists_regByte_of_all_two {a b : Byte} (h : [a, b].all Byte.isRegister = true) :
    ∃ i j, a = regByte i ∧ b = regByte j := by
  obtain ⟨i, hi⟩ := exists_regByte_of_isRegister (List.all_eq_true.1 h a (by simp))
  obtain ⟨j, hj⟩ := exists_regByte_of_isRegister (List.all_eq_true.1 h b (by simp))
  exact ⟨i, j, hi, hj⟩

/-- Settles O9: the index check decides each access, and the register file is read and written at the index. -/
theorem registerAccessIsBoundsChecked : Obligations.RegisterAccessIsBoundsChecked := by
  intro s r v
  refine ⟨fun h => ?_, fun hgt => ?_⟩
  · have hindex : regIndex r = .ok ⟨r.toNat, h⟩ := dif_pos h
    refine ⟨s.readReg_of_ok hindex, _, s.writeReg_of_ok v hindex, ?_, rfl, fun j hj => ?_⟩
    · rw [State.readReg_of_ok _ hindex, State.reg_setReg, if_pos rfl]
    · rw [State.reg_setReg, if_neg (fun e => hj (congrArg Fin.val e))]
  · have hindex : regIndex r = .error .regRange := dif_neg (by omega)
    exact ⟨s.readReg_of_error hindex, s.writeReg_of_error v hindex⟩

/-! ### The effect of an instruction with a bad register operand -/

theorem readReg_bind_error {s : State} {a : Byte} (h : [a].all Byte.isRegister = false)
    (k : Byte → Except Cause State) : (s.readReg a >>= k) = .error .regRange := by
  have ha : Byte.isRegister a = false := by simpa using h
  rw [s.readReg_of_error (regIndex_of_not_isRegister ha), bind_error]

/-- Two registers read one after the other: the check of each comes before anything else. -/
theorem readReg_bind_readReg_error {s : State} {a b : Byte} (h : [a, b].all Byte.isRegister = false)
    (k : Byte → Byte → Except Cause State) :
    (s.readReg a >>= fun va => s.readReg b >>= fun vb => k va vb) = .error .regRange := by
  cases ha : Byte.isRegister a with
  | false => exact readReg_bind_error (by simp [ha]) _
  | true =>
    obtain ⟨i, rfl⟩ := exists_regByte_of_isRegister ha
    have hb : [b].all Byte.isRegister = false := by simpa [ha] using h
    rw [readReg_regByte, bind_ok, readReg_bind_error hb]

theorem effect_of_not_wellFormed {i : Instr} (h : i.wellFormed = false) (s : State) :
    effect i s = .error .regRange := by
  cases i with
  | nop | hlt | ret | iret | nop1 | nop2 => cases h
  | push a | prn a | pra a | inc a | dec a | not a | call a | int a | jmp a | jeq a | jne a | jgt a | jlt a | jle a
  | jge a => exact readReg_bind_error h _
  | add a b | sub a b | mul a b | div a b | mod a b | cmp a b | and a b | or a b | xor a b | shl a b | shr a b | st a b =>
    exact readReg_bind_readReg_error h _
  | pop a =>
    have ha : Byte.isRegister a = false := by simpa [Instr.wellFormed, Instr.registerOperands] using h
    rw [effect, regIndex_of_not_isRegister ha, bind_error]
  | ldi a imm =>
    have ha : Byte.isRegister a = false := by simpa [Instr.wellFormed, Instr.registerOperands] using h
    exact s.writeReg_of_error imm (regIndex_of_not_isRegister ha)
  | ld a b =>
    cases hb : Byte.isRegister b with
    | false => exact readReg_bind_error (by simp [hb]) _
    | true =>
      obtain ⟨j, rfl⟩ := exists_regByte_of_isRegister hb
      have ha : Byte.isRegister a = false := by simpa [Instr.wellFormed, Instr.registerOperands, hb] using h
      rw [effect, readReg_regByte, bind_ok, State.memRead_byte, bind_ok]
      exact s.writeReg_of_error _ (regIndex_of_not_isRegister ha)

/-- An instruction that raised an error ends the run with it and changes nothing else, whatever its kind. -/
theorem exec_of_effect_error {i : Instr} {s : State} {c : Cause} (h : effect i s = .error c) :
    exec i s = .next (s.raise c) := by
  rw [exec_eq, h]
  split <;> rfl

/-- Settles O17: the index checks come before every other effect. -/
theorem badRegisterIndexIsFatal : Obligations.BadRegisterIndexIsFatal :=
  fun _ s h => exec_of_effect_error (effect_of_not_wellFormed h s)

/-! ### The effect of each instruction on named registers -/

section
variable (s : State) (a b : Index)

theorem binaryEffect_regByte {f : Byte → Byte → Except Cause Byte} {v : Byte} (h : f (s.reg a) (s.reg b) = .ok v) :
    binaryEffect f (regByte a) (regByte b) s = .ok (s.setReg a v) := by
  simp only [binaryEffect, readReg_regByte, bind_ok, h, writeReg_regByte]

theorem binaryEffect_regByte_error {f : Byte → Byte → Except Cause Byte} {c : Cause}
    (h : f (s.reg a) (s.reg b) = .error c) : binaryEffect f (regByte a) (regByte b) s = .error c := by
  simp only [binaryEffect, readReg_regByte, bind_ok, h, bind_error]

theorem unaryEffect_regByte (f : Byte → Byte) : unaryEffect f (regByte a) s = .ok (s.setReg a (f (s.reg a))) := by
  simp only [unaryEffect, readReg_regByte, bind_ok, writeReg_regByte]

theorem jumpEffect_regByte (cond : Byte → Bool) :
    jumpEffect cond (regByte a) s = if cond s.fl then .ok { s with pc := s.reg a } else s.advance 2 := by
  simp only [jumpEffect, readReg_regByte, bind_ok, pure_eq_ok]

theorem effect_cmp_regByte : effect (.cmp (regByte a) (regByte b)) s =
    .ok { s with fl := compareFlags (s.reg a) (s.reg b) } := by
  simp only [effect, readReg_regByte, bind_ok, pure_eq_ok]

theorem effect_ldi_regByte (imm : Byte) : effect (.ldi (regByte a) imm) s = .ok (s.setReg a imm) :=
  writeReg_regByte s a imm

theorem effect_ld_regByte : effect (.ld (regByte a) (regByte b)) s = .ok (s.setReg a (s.load (s.reg b))) := by
  simp only [effect, readReg_regByte, bind_ok, State.memRead_byte, writeReg_regByte]

theorem effect_st_regByte : effect (.st (regByte a) (regByte b)) s = .ok (s.store (s.reg a) (s.reg b)) := by
  simp only [effect, readReg_regByte, bind_ok, State.memWrite_byte]

theorem effect_push_regByte : effect (.push (regByte a)) s = .ok (s.push (s.reg a)) := by
  simp only [effect, readReg_regByte, bind_ok, pure_eq_ok]

theorem effect_pop_regByte : effect (.pop (regByte a)) s = .ok (s.popReg a) := by
  simp only [effect, regIndex_regByte, bind_ok, pure_eq_ok]

theorem effect_prn_regByte : effect (.prn (regByte a)) s = .ok { s with out := s.out ++ [.prn (s.reg a)] } := by
  simp only [effect, readReg_regByte, bind_ok, pure_eq_ok]

theorem effect_pra_regByte : effect (.pra (regByte a)) s = .ok { s with out := s.out ++ [.pra (s.reg a)] } := by
  simp only [effect, readReg_regByte, bind_ok, pure_eq_ok]

theorem effect_jmp_regByte : effect (.jmp (regByte a)) s = .ok { s with pc := s.reg a } := by
  simp only [effect, readReg_regByte, bind_ok, pure_eq_ok]

theorem effect_call_regByte : effect (.call (regByte a)) s =
    (s.advance 2).map fun next => { s.push next.pc with pc := s.reg a } := by
  simp only [effect, readReg_regByte, bind_ok]
  cases s.advance 2 <;> rfl

theorem effect_int_regByte : effect (.int (regByte a)) s =
    (requestedLine (s.reg a) >>= fun line => (s.advance 2).map fun t => t.request line) := by
  simp only [effect, readReg_regByte, bind_ok]
  cases s.advance 2 <;> rfl

end

/-! ### Admissible instructions -/

theorem requestedLine_of_le {n : Byte} (h : 1 ≤ n.toNat ∧ n.toNat ≤ 8) :
    requestedLine n = .ok ⟨n.toNat - 1, by omega⟩ := dif_pos h

theorem requestedLine_of_not_le {n : Byte} (h : ¬ (1 ≤ n.toNat ∧ n.toNat ≤ 8)) :
    requestedLine n = .error .intLine := dif_neg h

theorem advance_of_le {s : State} {n : Nat} (h : s.pc.toNat + n ≤ 255) :
    s.advance n = .ok { s with pc := s.pc + BitVec.ofNat 8 n } := if_neg (Nat.not_lt.2 h)

theorem advance_of_gt {s : State} {n : Nat} (h : s.pc.toNat + n > 255) : s.advance n = .error .pcRange := if_pos h

theorem byNonZero_of_ne {f : Byte → Byte → Byte} {va vb : Byte} (h : vb ≠ 0) : byNonZero f va vb = .ok (f va vb) :=
  if_neg h

theorem exists_jumpEffect_regByte (cond : Byte → Bool) {s : State} (a : Index) (hpc : s.pc.toNat + 2 ≤ 255) :
    ∃ t, jumpEffect cond (regByte a) s = .ok t := by
  rw [jumpEffect_regByte, advance_of_le hpc]
  split <;> exact ⟨_, rfl⟩

/-- On admissible operands, away from the end of memory, step 6 raises nothing. -/
theorem exists_effect_of_admissible {i : Instr} {s : State} (h : Admissible i s) (hpc : s.pc.toNat + 2 ≤ 255) :
    ∃ t, effect i s = .ok t := by
  obtain ⟨hwf, hdiv, hint⟩ := h
  cases i with
  | nop | hlt | ret | iret | nop1 | nop2 => exact ⟨_, rfl⟩
  | add a b | sub a b | mul a b | and a b | or a b | xor a b | shl a b | shr a b =>
    obtain ⟨a, b, rfl, rfl⟩ := exists_regByte_of_all_two hwf
    exact ⟨_, binaryEffect_regByte s a b rfl⟩
  | div a b | mod a b =>
    obtain ⟨a, b, rfl, rfl⟩ := exists_regByte_of_all_two hwf
    have hne : s.reg b ≠ 0 := fun h0 => hdiv (regByte a) (regByte b) (by simp) (h0 ▸ readReg_regByte s b)
    exact ⟨_, binaryEffect_regByte s a b (byNonZero_of_ne hne)⟩
  | inc a | dec a | not a =>
    obtain ⟨a, rfl⟩ := exists_regByte_of_all_one hwf
    exact ⟨_, unaryEffect_regByte s a _⟩
  | cmp a b =>
    obtain ⟨a, b, rfl, rfl⟩ := exists_regByte_of_all_two hwf
    exact ⟨_, effect_cmp_regByte s a b⟩
  | ldi a imm =>
    obtain ⟨a, rfl⟩ := exists_regByte_of_all_one hwf
    exact ⟨_, effect_ldi_regByte s a imm⟩
  | ld a b =>
    obtain ⟨a, b, rfl, rfl⟩ := exists_regByte_of_all_two hwf
    exact ⟨_, effect_ld_regByte s a b⟩
  | st a b =>
    obtain ⟨a, b, rfl, rfl⟩ := exists_regByte_of_all_two hwf
    exact ⟨_, effect_st_regByte s a b⟩
  | pop a =>
    obtain ⟨a, rfl⟩ := exists_regByte_of_all_one hwf
    exact ⟨_, effect_pop_regByte s a⟩
  | push a | prn a | pra a | jmp a =>
    obtain ⟨a, rfl⟩ := exists_regByte_of_all_one hwf
    exact ⟨_, readReg_regByte_bind s a _⟩
  | jeq a | jne a | jgt a | jlt a | jle a | jge a =>
    obtain ⟨a, rfl⟩ := exists_regByte_of_all_one hwf
    exact exists_jumpEffect_regByte _ a hpc
  | call a =>
    obtain ⟨a, rfl⟩ := exists_regByte_of_all_one hwf
    rw [effect_call_regByte, advance_of_le hpc]
    exact ⟨_, rfl⟩
  | int a =>
    obtain ⟨a, rfl⟩ := exists_regByte_of_all_one hwf
    have hline := requestedLine_of_le (hint _ _ rfl (readReg_regByte s a))
    rw [effect_int_regByte, hline, bind_ok, advance_of_le hpc]
    exact ⟨_, rfl⟩

/-! ### Progress -/

theorem exec_total (i : Instr) (s : State) : ∃ t, exec i s = .next t := by
  rw [exec_eq]
  split <;> exact ⟨_, rfl⟩

/-- Settles O41: step 6 raises nothing and step 7 has room, so the instruction ends as its effect does. -/
theorem admissibleInstructionsComplete : Obligations.AdmissibleInstructionsComplete := by
  intro i s hi hpc
  obtain ⟨v, hv⟩ := exists_effect_of_admissible hi (by omega)
  obtain ⟨t, ht⟩ := exec_total i s
  have hsize : i.size ≤ 3 := by
    have haa := ((legalFields_iff _).1 (legalFields_fields i)).1
    have hlt : i.fields.aa.toNat ≤ 2 := by bv_omega
    exact Nat.succ_le_succ hlt
  refine ⟨t, ht, ?_⟩
  rcases exec_cases ht with ⟨c, he, -⟩ | ⟨-, he⟩ | ⟨u, -, he, -, rfl⟩ | ⟨u, hb, he, hgt, -⟩
  · cases hv.symm.trans he
  · exact ⟨effect_fatal he, (effect_frame he).running⟩
  · exact ⟨effect_fatal (t := u) he, (effect_frame he).running⟩
  · rw [(effect_frame he).pc hb] at hgt
    omega

theorem fetchAndExec_total (s : State) : ∃ t, fetchAndExec s = .next t := by
  rcases fetchAndExec_cases s with ⟨i, _, -, e⟩ | ⟨err, -, e⟩ <;> rw [e]
  · exact exec_total i s
  · exact ⟨_, rfl⟩

theorem cycle_total (input : CycleInput) (s : State) : ∃ t, cycle input s = .next t := by
  cases hrun : (State.applyEvents input.events s).running with
  | true =>
    rw [cycle_of_running input s hrun]
    exact fetchAndExec_total _
  | false => exact ⟨_, cycle_of_stopped input s hrun⟩

/-- The host's port takes the first command or refuses it by name (log 3). -/
theorem hostStep_total (s : State) :
    (∃ t, s.hostStep = .next t) ∨ ∃ c rest, s.host = c :: rest ∧ s.hostStep = .refused (.hostOutOfOrder c) := by
  unfold State.hostStep
  split
  · exact .inl ⟨_, rfl⟩
  · exact .inl ⟨_, rfl⟩
  · split
    · exact .inl ⟨_, rfl⟩
    · exact .inr ⟨_, _, ‹_›, rfl⟩
  · split
    · exact .inl ⟨_, rfl⟩
    · exact .inr ⟨_, _, ‹_›, rfl⟩

/-- Settles O42: a cycle always answers, the host's port answers or refuses its first command. -/
theorem stepsAreNeverStuck : Obligations.StepsAreNeverStuck := by
  intro s
  cases hrun : s.running with
  | true =>
    rw [step_of_running s hrun]
    exact .inl (cycle_total _ _)
  | false =>
    rw [step_of_not_running s hrun]
    exact (hostStep_total s).imp_right fun h => ⟨rfl, h⟩

end Sys2Proof.Proofs
end

section
/-! FL as an input (10_state.md R17): the effect of an instruction in a state with another FL. -/

namespace Sys2Proof.Proofs

open Sys2Proof.Machine Sys2Proof.Claims

/-! ### Another FL under the shared operations -/

/-- The state with another value in FL. -/
def withFl (f : Byte) (s : State) : State := { s with fl := f }

/-- Two sequences whose continuations answer alike but for FL. -/
theorem bind_eq_map_withFl {α : Type} {f : Byte} {k l : α → Except Cause State} (r : Except Cause α)
    (h : ∀ v, k v = (l v).map (withFl f)) : (r >>= k) = (r >>= l).map (withFl f) := by
  cases r with
  | error c => rfl
  | ok v => exact h v

theorem writeReg_withFl (s : State) (f r v : Byte) :
    (withFl f s).writeReg r v = (s.writeReg r v).map (withFl f) :=
  bind_eq_map_withFl (regIndex r) fun _ => rfl

theorem memWrite_withFl (s : State) (f v : Byte) (addr : Nat) :
    (withFl f s).memWrite addr v = (s.memWrite addr v).map (withFl f) := by
  unfold State.memWrite
  split <;> rfl

theorem advance_withFl (s : State) (f : Byte) (n : Nat) : (withFl f s).advance n = (s.advance n).map (withFl f) := by
  unfold State.advance
  change (if s.pc.toNat + n > 255 then _ else _) = _
  split <;> rfl

theorem binaryEffect_withFl (g : Byte → Byte → Except Cause Byte) (a b : Byte) (s : State) (f : Byte) :
    binaryEffect g a b (withFl f s) = (binaryEffect g a b s).map (withFl f) :=
  bind_eq_map_withFl (s.readReg a) fun va => bind_eq_map_withFl (s.readReg b) fun vb =>
    bind_eq_map_withFl (g va vb) fun v => writeReg_withFl s f a v

theorem unaryEffect_withFl (g : Byte → Byte) (a : Byte) (s : State) (f : Byte) :
    unaryEffect g a (withFl f s) = (unaryEffect g a s).map (withFl f) :=
  bind_eq_map_withFl (s.readReg a) fun v => writeReg_withFl s f a (g v)

/-- A jump whose condition does not tell the two values of FL apart. -/
theorem jumpEffect_withFl {cond : Byte → Bool} {s : State} {f : Byte} (h : cond f = cond s.fl) (a : Byte) :
    jumpEffect cond a (withFl f s) = (jumpEffect cond a s).map (withFl f) := by
  refine bind_eq_map_withFl (s.readReg a) fun target => ?_
  change (if cond f = true then _ else _) = _
  rw [h]
  split
  · rfl
  · exact advance_withFl s f 2

/-! ### Another FL under an instruction -/

/-- An instruction that neither reads nor writes FL does the same in a state with another FL, and leaves that FL. -/
theorem effect_withFl {i : Instr} (hr : readsFlags i = false) (hw : writesFlags i = false) (s : State) (f : Byte) :
    effect i (withFl f s) = (effect i s).map (withFl f) := by
  cases i with
  | nop | nop1 | nop2 | hlt | ret => rfl
  | iret | cmp => cases hw
  | jeq | jne | jgt | jlt | jle | jge => cases hr
  | add a b | sub a b | mul a b | div a b | mod a b | and a b | or a b | xor a b | shl a b | shr a b =>
    exact binaryEffect_withFl _ a b s f
  | inc a | dec a | not a => exact unaryEffect_withFl _ a s f
  | ldi a imm => exact writeReg_withFl s f a imm
  | ld a b =>
    exact bind_eq_map_withFl (s.readReg b) fun addr => bind_eq_map_withFl (s.memRead addr.toNat) fun v =>
      writeReg_withFl s f a v
  | st a b =>
    exact bind_eq_map_withFl (s.readReg a) fun addr => bind_eq_map_withFl (s.readReg b) fun v =>
      memWrite_withFl s f v addr.toNat
  | pop a => exact bind_eq_map_withFl (regIndex a) fun _ => rfl
  | push a | prn a | pra a | jmp a => exact bind_eq_map_withFl (s.readReg a) fun _ => rfl
  | call a =>
    refine bind_eq_map_withFl (s.readReg a) fun target => ?_
    rw [advance_withFl]
    cases s.advance 2 <;> rfl
  | int a =>
    refine bind_eq_map_withFl (s.readReg a) fun n => bind_eq_map_withFl (requestedLine n) fun line => ?_
    rw [advance_withFl]
    cases s.advance 2 <;> rfl

/-- The conditional jumps look at FL's bits 2 to 0 only (42_flow.md R114). -/
theorem effect_withFl_of_low_bits {i : Instr} (hr : readsFlags i = true) {s : State} {f : Byte}
    (hf : f.toNat % 8 = s.fl.toNat % 8) : effect i (withFl f s) = (effect i s).map (withFl f) := by
  have hbit : ∀ k, k < 3 → f.getLsbD k = s.fl.getLsbD k := by
    intro k hk
    have hmod : (f.toNat % 2 ^ 3).testBit k = (s.fl.toNat % 2 ^ 3).testBit k := congrArg (·.testBit k) hf
    simp only [Nat.testBit_mod_two_pow, hk, decide_true, Bool.true_and] at hmod
    exact hmod
  have hE : flagE f = flagE s.fl := hbit 0 (by decide)
  have hG : flagG f = flagG s.fl := hbit 1 (by decide)
  have hL : flagL f = flagL s.fl := hbit 2 (by decide)
  cases i with
  | jeq a => exact jumpEffect_withFl hE a
  | jne a => exact jumpEffect_withFl (congrArg Bool.not hE) a
  | jgt a => exact jumpEffect_withFl hG a
  | jlt a => exact jumpEffect_withFl hL a
  | jle a => exact jumpEffect_withFl (congrArg₂ or hL hE) a
  | jge a => exact jumpEffect_withFl (congrArg₂ or hG hE) a
  | _ => cases hr

/-- An instruction that writes FL does the same whatever FL was, if it raises no error. -/
theorem effect_withFl_of_writesFlags {i : Instr} (hw : writesFlags i = true) (hwf : i.wellFormed = true) (s : State)
    (f : Byte) : ∃ u, effect i s = .ok u ∧ effect i (withFl f s) = .ok u := by
  cases i with
  | iret => exact ⟨_, rfl, rfl⟩
  | cmp a b =>
    obtain ⟨a, b, rfl, rfl⟩ := exists_regByte_of_all_two hwf
    exact ⟨_, effect_cmp_regByte s a b, effect_cmp_regByte (withFl f s) a b⟩
  | _ => cases hw

/-! ### The end of an instruction -/

theorem exec_of_effect_flow {i : Instr} {s t : State} (hb : i.fields.b = true) (h : effect i s = .ok t) :
    exec i s = .next t := by
  rw [exec_eq, if_pos hb, h, endFlow_ok]

/-- Step 7 depends on the effect only, not on the state before it (43_cycle.md R132). -/
theorem exec_of_effect_sequential {i : Instr} {s t : State} (hb : i.fields.b = false) (h : effect i s = .ok t) :
    exec i s = .next (t.settle (t.advance i.size)) := by
  rw [exec_eq, hb, h]
  rfl

theorem exec_congr_of_effect {i : Instr} {s s' u : State} (h : effect i s = .ok u) (h' : effect i s' = .ok u) :
    exec i s' = exec i s := by
  cases hb : i.fields.b with
  | true => rw [exec_of_effect_flow hb h, exec_of_effect_flow hb h']
  | false => rw [exec_of_effect_sequential hb h, exec_of_effect_sequential hb h']

theorem exec_withFl {i : Instr} {s t : State} {f : Byte} (h : effect i (withFl f s) = (effect i s).map (withFl f))
    (ht : exec i s = .next t) : exec i (withFl f s) = .next (withFl f t) := by
  cases he : effect i s with
  | error c =>
    rw [he] at h
    cases (exec_of_effect_error he).symm.trans ht
    exact exec_of_effect_error h
  | ok u =>
    rw [he] at h
    cases hb : i.fields.b with
    | true =>
      cases (exec_of_effect_flow hb he).symm.trans ht
      exact exec_of_effect_flow hb h
    | false =>
      cases (exec_of_effect_sequential hb he).symm.trans ht
      rw [exec_of_effect_sequential hb h, advance_withFl]
      cases u.advance i.size <;> rfl

/-- Settles O37: the effect commutes with a change of FL, or overwrites it. -/
theorem onlyJumpInstructionsReadFlags : Obligations.OnlyJumpInstructionsReadFlags := by
  intro i s t f h
  refine ⟨fun hr => ?_, fun hr hf => exec_withFl (effect_withFl_of_low_bits hr hf) h⟩
  cases hw : writesFlags i with
  | false =>
    rw [if_neg (fun hcon => Bool.false_ne_true hcon.1)]
    exact exec_withFl (effect_withFl hr hw s f) h
  | true =>
    cases hwf : i.wellFormed with
    | true =>
      obtain ⟨u, hu, hu'⟩ := effect_withFl_of_writesFlags hw hwf s f
      rw [if_pos ⟨rfl, rfl⟩]
      exact (exec_congr_of_effect hu hu').trans h
    | false =>
      have herr := effect_of_not_wellFormed hwf
      rw [if_neg (fun hcon => Bool.false_ne_true hcon.2)]
      exact exec_withFl (by rw [herr, herr]; rfl) h

end Sys2Proof.Proofs
end

section
/-! What each instruction does on named registers (40_alu.md, 41_nonflow.md, 42_flow.md): its effect in the terms of the
statements, then step 7 for the ALU and non-flow instructions. -/

namespace Sys2Proof.Proofs

open Sys2Proof.Machine Sys2Proof.Claims

/-! ### Registers and the PC as numbers -/

theorem add_ofNat_eq (p : Byte) (n : Nat) : p + BitVec.ofNat 8 n = BitVec.ofNat 8 (p.toNat + n) := by
  rw [BitVec.ofNat_add, BitVec.ofNat_toNat, BitVec.setWidth_eq]

theorem toNat_eq_mod {v : Byte} {n : Nat} (h : v.toNat = n) : v.toNat = n % 256 :=
  h ▸ (Nat.mod_eq_of_lt v.isLt).symm

/-- `x[i] <- v` with the value as a number (10_state.md R12). -/
theorem setReg_eq_withReg (s : State) (i : Index) {v : Byte} {n : Nat} (h : v.toNat = n % 256) :
    s.setReg i v = withReg s i n := by
  rw [withReg, ← h, BitVec.ofNat_toNat, BitVec.setWidth_eq]
  rfl

theorem setReg_eq_withReg_toNat (s : State) (i : Index) (v : Byte) : s.setReg i v = withReg s i v.toNat :=
  setReg_eq_withReg s i (toNat_eq_mod rfl)

/-! ### Step 7 -/

/-- An ALU or non-flow instruction that raised nothing has its effect, and then the PC moves or the run ends. -/
theorem sequential_of_effect {i : Instr} {n : Nat} {s t : State} (hb : i.fields.b = false) (hn : i.size = n)
    (h : effect i s = .ok t) : Sequential i n s t := by
  have hpc : t.pc = s.pc := (effect_frame h).pc hb
  subst hn
  unfold Claims.Sequential
  rw [exec_of_effect_sequential hb h, ← hpc]
  refine ⟨fun hle => ?_, fun hgt => ?_⟩
  · rw [advance_of_le hle, add_ofNat_eq]
    rfl
  · rw [advance_of_gt hgt]
    rfl

/-- The first case of `Sequential`: away from the end of memory the instruction completes. -/
theorem exec_of_sequential {i : Instr} {n : Nat} {s t : State} (h : Sequential i n s t) (hpc : s.pc.toNat + n ≤ 255) :
    exec i s = .next { t with pc := BitVec.ofNat 8 (s.pc.toNat + n) } := h.1 hpc

/-! ### ALU -/

theorem sequential_binary {i : Instr} {f : Byte → Byte → Except Cause Byte} {s : State} {a b : Index} {v : Byte} {n : Nat}
    (hb : i.fields.b = false) (hsize : i.size = 3) (hi : effect i s = binaryEffect f (regByte a) (regByte b) s)
    (hf : f (s.reg a) (s.reg b) = .ok v) (hv : v.toNat = n % 256) : Sequential i 3 s (withReg s a n) := by
  rw [← setReg_eq_withReg s a hv]
  exact sequential_of_effect hb hsize (hi.trans (binaryEffect_regByte s a b hf))

theorem sequential_unary {i : Instr} {f : Byte → Byte} {s : State} {a : Index} {n : Nat} (hb : i.fields.b = false)
    (hsize : i.size = 2) (hi : effect i s = unaryEffect f (regByte a) s) (hv : (f (s.reg a)).toNat = n % 256) :
    Sequential i 2 s (withReg s a n) := by
  rw [← setReg_eq_withReg s a hv]
  exact sequential_of_effect hb hsize (hi.trans (unaryEffect_regByte s a f))

/-- A difference modulo 256, as the integers have it (00_scope.md R6). -/
theorem toNat_sub_eq_int (v w : Byte) : (v - w).toNat = (((v.toNat : Int) - w.toNat) % 256).toNat % 256 := by
  rw [BitVec.toNat_sub]
  have hv := v.isLt
  have hw := w.isLt
  omega

/-- Settles O11: each result is the operation of the bytes, which is the integer one modulo 256. -/
theorem addSubMulResults : Obligations.AddSubMulResults := fun s a b =>
  ⟨sequential_binary rfl rfl rfl rfl (BitVec.toNat_add (s.reg a) (s.reg b)),
    sequential_binary rfl rfl rfl rfl (toNat_sub_eq_int (s.reg a) (s.reg b)),
    sequential_binary rfl rfl rfl rfl (BitVec.toNat_mul (s.reg a) (s.reg b))⟩

/-- Settles O12: a divisor other than 0 divides, a 0 raises before the write. -/
theorem divModResults : Obligations.DivModResults := by
  intro s a b
  refine ⟨fun hne => ?_, fun hzero => ?_⟩
  · have hdiv : s.reg b ≠ 0 := fun h0 => hne (congrArg BitVec.toNat h0)
    exact ⟨sequential_binary rfl rfl rfl (byNonZero_of_ne hdiv) (toNat_eq_mod BitVec.toNat_udiv),
      sequential_binary rfl rfl rfl (byNonZero_of_ne hdiv) (toNat_eq_mod BitVec.toNat_umod)⟩
  · have hdiv : s.reg b = 0 := BitVec.eq_of_toNat_eq hzero
    exact ⟨exec_of_effect_error (binaryEffect_regByte_error s a b (if_pos hdiv)),
      exec_of_effect_error (binaryEffect_regByte_error s a b (if_pos hdiv))⟩

/-- Settles O13: as sums and differences modulo 256; the complement is what is missing to 255. -/
theorem incDecNotResults : Obligations.IncDecNotResults := by
  intro s a
  have hnot : (s.reg a ^^^ 0xFF).toNat = 255 - x s a := by
    have hones : s.reg a ^^^ 0xFF = ~~~ s.reg a := BitVec.xor_allOnes
    rw [hones, BitVec.toNat_not]
    rfl
  exact ⟨sequential_unary rfl rfl rfl (BitVec.toNat_add (s.reg a) 1),
    sequential_unary rfl rfl rfl (toNat_sub_eq_int (s.reg a) 1), sequential_unary rfl rfl rfl (toNat_eq_mod hnot)⟩

/-- Settles O14: bitwise on the bytes as on their values. -/
theorem andOrXorResults : Obligations.AndOrXorResults := fun s a b =>
  ⟨sequential_binary rfl rfl rfl rfl (toNat_eq_mod (BitVec.toNat_and (s.reg a) (s.reg b))),
    sequential_binary rfl rfl rfl rfl (toNat_eq_mod (BitVec.toNat_or (s.reg a) (s.reg b))),
    sequential_binary rfl rfl rfl rfl (toNat_eq_mod (BitVec.toNat_xor (s.reg a) (s.reg b)))⟩

/-- Settles O15: shifts by the whole amount are products and quotients by its power of two. -/
theorem shiftResults : Obligations.ShiftResults := by
  intro s a b
  have hleft : (s.reg a <<< (s.reg b).toNat).toNat = x s a * 2 ^ x s b % 256 := by
    rw [BitVec.toNat_shiftLeft, Nat.shiftLeft_eq]
    rfl
  have hright : (s.reg a >>> (s.reg b).toNat).toNat = x s a / 2 ^ x s b := by
    rw [BitVec.toNat_ushiftRight, Nat.shiftRight_eq_div_pow]
    rfl
  exact ⟨sequential_binary rfl rfl rfl rfl hleft, sequential_binary rfl rfl rfl rfl (toNat_eq_mod hright)⟩

/-- Settles O16: the flags are the comparison of the values read. -/
theorem compareSetsOneFlag : Obligations.CompareSetsOneFlag := fun s a b =>
  sequential_of_effect rfl rfl (effect_cmp_regByte s a b)

/-! ### Non-flow -/

/-- Settles O18: a no-op has the state itself as its effect. -/
theorem nopsOnlyMoveThePc : Obligations.NopsOnlyMoveThePc := fun _ _ _ =>
  ⟨sequential_of_effect rfl rfl rfl, sequential_of_effect rfl rfl rfl, sequential_of_effect rfl rfl rfl⟩

/-- Settles O19: the effect clears the running flag, and step 7 follows as always. -/
theorem haltStopsTheRun : Obligations.HaltStopsTheRun := fun _ => sequential_of_effect rfl rfl rfl

/-- Settles O20: the effect is the register write. -/
theorem loadImmediateResult : Obligations.LoadImmediateResult := fun s a imm =>
  setReg_eq_withReg_toNat s a imm ▸ sequential_of_effect rfl rfl (effect_ldi_regByte s a imm)

/-- Settles O21: an address held in a register is in range, so the effect is the register write. -/
theorem loadResult : Obligations.LoadResult := fun s a b =>
  setReg_eq_withReg_toNat s a (s.load (s.reg b)) ▸ sequential_of_effect rfl rfl (effect_ld_regByte s a b)

theorem storedOnly_store (s : State) (a v : Byte) : StoredOnly s (s.store a v) a v :=
  ⟨rfl, fun b => Memory.get_put s.mem a.toNat b v⟩

/-- Settles O22: an address held in a register is in range, so the effect is the store. -/
theorem storeResult : Obligations.StoreResult := fun s a b =>
  ⟨_, storedOnly_store s (s.reg a) (s.reg b), sequential_of_effect rfl rfl (effect_st_regByte s a b)⟩

/-- A push is a write to SP and then a store at the new SP (20_memory.md R37). -/
theorem push_eq (s : State) (v : Byte) : s.push v = (withReg s 7 (s.sp - 1).toNat).store (s.sp - 1) v := by
  have hsp : (s.setReg Config.spIndex (s.sp - 1)).sp = s.sp - 1 := by rw [State.sp_setReg, if_pos rfl]
  rw [State.push, hsp, setReg_eq_withReg_toNat]
  rfl

/-- A pop is a write to SP (20_memory.md R37). -/
theorem pop_eq (s : State) : s.pop.2 = withReg s 7 (s.sp + 1).toNat := setReg_eq_withReg_toNat s Config.spIndex _

/-- Settles O23: the effect is the write to SP and the store of the value read before it. -/
theorem pushResult : Obligations.PushResult := fun s a =>
  ⟨_, storedOnly_store _ _ _, sequential_of_effect rfl rfl (push_eq s (s.reg a) ▸ effect_push_regByte s a)⟩

/-- Settles O24: SP first, then the register, so that `POP R7` ends as the popped byte. -/
theorem popResult : Obligations.PopResult := by
  intro s a
  have hpop : s.popReg a = withReg (withReg s 7 (s.sp + 1).toNat) a (s.load s.sp).toNat := by
    rw [State.popReg, pop_eq, setReg_eq_withReg_toNat]
    rfl
  exact hpop ▸ sequential_of_effect rfl rfl (effect_pop_regByte s a)

/-- Settles O25: the effect is the appended record. -/
theorem printResults : Obligations.PrintResults := fun s a =>
  ⟨sequential_of_effect rfl rfl (effect_prn_regByte s a), sequential_of_effect rfl rfl (effect_pra_regByte s a)⟩

/-- Settles O10: the pop reads the byte just pushed and brings SP back, for R7 too. -/
theorem pushThenPopRestores : Obligations.PushThenPopRestores := by
  intro s a hpc
  have hpush := exec_of_sequential (sequential_of_effect rfl rfl (effect_push_regByte s a)) (n := 2) (by omega)
  refine ⟨_, _, hpush, exec_of_sequential (sequential_of_effect rfl rfl (effect_pop_regByte _ a)) (n := 2) ?_,
    ?_, rfl, ?_, fun b hb => ?_⟩
  · change (BitVec.ofNat 8 (s.pc.toNat + 2)).toNat + 2 ≤ 255
    rw [BitVec.toNat_ofNat]
    omega
  · change ((s.push (s.reg a)).popReg a).regs = s.regs
    apply State.regs_ext
    intro j
    rw [State.reg_popReg, State.load_push, State.sp_push, State.reg_push, if_pos rfl, sub_add_cancel]
    by_cases hj : j = a
    · rw [if_pos hj, hj]
    · by_cases hsp : j = Config.spIndex
      · rw [if_neg hj, if_pos hsp, hsp]
        rfl
      · rw [if_neg hj, if_neg hsp, if_neg hsp]
  · change (BitVec.ofNat 8 ((BitVec.ofNat 8 (s.pc.toNat + 2)).toNat + 2)).toNat = s.pc.toNat + 4
    rw [BitVec.toNat_ofNat, BitVec.toNat_ofNat]
    omega
  · exact (s.load_push (s.reg a) b).trans (if_neg hb)

/-! ### Flow control: calls -/

theorem effect_call_of_le {s : State} (a : Index) (hpc : s.pc.toNat + 2 ≤ 255) :
    effect (.call (regByte a)) s = .ok { s.push (BitVec.ofNat 8 (s.pc.toNat + 2)) with pc := s.reg a } := by
  rw [effect_call_regByte, advance_of_le hpc, add_ofNat_eq]
  rfl

/-- Settles O26: the return address is checked before the push. -/
theorem callResult : Obligations.CallResult := by
  intro s a
  refine ⟨fun hle => ⟨_, storedOnly_store _ _ _, ?_⟩, fun hgt => exec_of_effect_error ?_⟩
  · rw [← push_eq]
    exact exec_of_effect_flow rfl (effect_call_of_le a hle)
  · rw [effect_call_regByte, advance_of_gt hgt]
    rfl

theorem exec_ret (s : State) : exec .ret s = .next { s.pop.2 with pc := s.load s.sp } := exec_of_effect_flow rfl rfl

/-- Settles O27: the pop writes SP, its value is the PC. -/
theorem returnResult : Obligations.ReturnResult := fun s => pop_eq s ▸ exec_ret s

/-- Settles O28: the RET pops the return address the CALL pushed and brings SP back. -/
theorem callThenReturnResumes : Obligations.CallThenReturnResumes := by
  intro s a hpc
  refine ⟨_, exec_of_effect_flow rfl (effect_call_of_le a hpc), rfl, fun u hsp hload => ⟨_, exec_ret u, ?_, ?_⟩⟩
  · change (u.load u.sp).toNat = s.pc.toNat + 2
    rw [hload]
    change ((s.push (BitVec.ofNat 8 (s.pc.toNat + 2))).load (s.push (BitVec.ofNat 8 (s.pc.toNat + 2))).sp).toNat = _
    rw [State.load_push, State.sp_push, if_pos rfl, BitVec.toNat_ofNat]
    omega
  · change u.pop.2.sp = s.sp
    rw [State.sp_pop, hsp]
    change (s.push (BitVec.ofNat 8 (s.pc.toNat + 2))).sp + 1 = s.sp
    rw [State.sp_push, sub_add_cancel]

/-! ### Flow control: jumps -/

/-- Settles O29: the effect is the new PC, which step 7 leaves. -/
theorem jumpResult : Obligations.JumpResult := fun s a => exec_of_effect_flow rfl (effect_jmp_regByte s a)

theorem jumpsWhen_of_cond {i : Instr} {cond : Byte → Bool} {s : State} {a : Index} {P : Prop} (hb : i.fields.b = true)
    (hi : effect i s = jumpEffect cond (regByte a) s) (hP : cond s.fl = true ↔ P) : JumpsWhen i a s P := by
  rw [jumpEffect_regByte] at hi
  refine ⟨fun h => ?_, fun h hle => ?_, fun h hgt => ?_⟩
  · rw [if_pos (hP.2 h)] at hi
    exact exec_of_effect_flow hb hi
  · rw [if_neg (mt hP.1 h), advance_of_le hle, add_ofNat_eq] at hi
    exact exec_of_effect_flow hb hi
  · rw [if_neg (mt hP.1 h), advance_of_gt hgt] at hi
    exact exec_of_effect_error hi

/-- The bits of FL that each condition tests (42_flow.md R114). -/
theorem cond_iff_bits : ∀ fl : Byte,
    (condEq fl = true ↔ fl.toNat % 2 = 1) ∧ (condNe fl = true ↔ fl.toNat % 2 = 0) ∧
    (condGt fl = true ↔ fl.toNat / 2 % 2 = 1) ∧ (condGe fl = true ↔ fl &&& 0b00000011 ≠ 0) ∧
    (condLt fl = true ↔ fl.toNat / 4 % 2 = 1) ∧ (condLe fl = true ↔ fl &&& 0b00000101 ≠ 0) := by decide

/-- Settles O30: each condition by the bits it tests. -/
theorem conditionalJumpResults : Obligations.ConditionalJumpResults := by
  intro s a
  obtain ⟨heq, hne, hgt, hge, hlt, hle⟩ := cond_iff_bits s.fl
  exact ⟨jumpsWhen_of_cond rfl rfl heq, jumpsWhen_of_cond rfl rfl hne, jumpsWhen_of_cond rfl rfl hgt,
    jumpsWhen_of_cond rfl rfl hge, jumpsWhen_of_cond rfl rfl hlt, jumpsWhen_of_cond rfl rfl hle⟩

theorem compareFlags_cases (v w : Byte) :
    (v.toNat < w.toNat ∧ compareFlags v w = 0b00000100) ∨ (v.toNat > w.toNat ∧ compareFlags v w = 0b00000010) ∨
    (v.toNat = w.toNat ∧ compareFlags v w = 0b00000001) := by
  unfold compareFlags
  split
  · exact .inl ⟨‹_›, rfl⟩
  · split
    · exact .inr (.inl ⟨‹_›, rfl⟩)
    · exact .inr (.inr ⟨by omega, rfl⟩)

/-- Each condition on the flags of a comparison is its relation of the compared values (42_flow.md R114, last column). -/
theorem cond_compareFlags_iff (v w : Byte) :
    (condEq (compareFlags v w) = true ↔ v.toNat = w.toNat) ∧ (condNe (compareFlags v w) = true ↔ v.toNat ≠ w.toNat) ∧
    (condGt (compareFlags v w) = true ↔ v.toNat > w.toNat) ∧ (condGe (compareFlags v w) = true ↔ v.toNat ≥ w.toNat) ∧
    (condLt (compareFlags v w) = true ↔ v.toNat < w.toNat) ∧ (condLe (compareFlags v w) = true ↔ v.toNat ≤ w.toNat) := by
  rcases compareFlags_cases v w with ⟨h, e⟩ | ⟨h, e⟩ | ⟨h, e⟩ <;> rw [e]
  · exact ⟨iff_of_false (by decide) (by omega), iff_of_true rfl (by omega), iff_of_false (by decide) (by omega),
      iff_of_false (by decide) (by omega), iff_of_true rfl h, iff_of_true rfl (by omega)⟩
  · exact ⟨iff_of_false (by decide) (by omega), iff_of_true rfl (by omega), iff_of_true rfl h,
      iff_of_true rfl (by omega), iff_of_false (by decide) (by omega), iff_of_false (by decide) (by omega)⟩
  · exact ⟨iff_of_true rfl h, iff_of_false (by decide) (by omega), iff_of_false (by decide) (by omega),
      iff_of_true rfl (by omega), iff_of_false (by decide) (by omega), iff_of_true rfl (by omega)⟩

/-- Settles O31: CMP writes the flags of the comparison, on which each jump's condition is its relation. -/
theorem compareThenJumpFollowsTheRelation : Obligations.CompareThenJumpFollowsTheRelation := by
  intro s p q a hpc
  have hcmp := exec_of_sequential (sequential_of_effect rfl rfl (effect_cmp_regByte s p q)) (n := 3) (by omega)
  obtain ⟨heq, hne, hgt, hge, hlt, hle⟩ := cond_compareFlags_iff (s.reg p) (s.reg q)
  exact ⟨_, hcmp, rfl, jumpsWhen_of_cond rfl rfl heq, jumpsWhen_of_cond rfl rfl hne, jumpsWhen_of_cond rfl rfl hgt,
    jumpsWhen_of_cond rfl rfl hge, jumpsWhen_of_cond rfl rfl hlt, jumpsWhen_of_cond rfl rfl hle⟩

/-! ### Flow control: INT -/

/-- A request as the power of two of its line joined to IS (10_state.md R20). -/
theorem request_eq_withReg (s : State) (line : Index) : s.request line = withReg s 6 (x s 6 ||| 2 ^ (line : Nat)) := by
  refine setReg_eq_withReg s Config.isIndex (toNat_eq_mod ?_)
  rw [BitVec.toNat_or, BitVec.toNat_twoPow, Nat.mod_eq_of_lt (Nat.pow_lt_pow_right (by decide) line.isLt)]
  rfl

/-- Settles O32: the number is checked first, then the return address, and only then is the bit set. -/
theorem interruptRequestResult : Obligations.InterruptRequestResult := by
  intro s a
  have heff := effect_int_regByte s a
  refine ⟨fun ⟨h1, h8, hle⟩ => ?_, fun hn => ?_, fun ⟨h1, h8, hgt⟩ => ?_⟩
  · rw [requestedLine_of_le ⟨h1, h8⟩, bind_ok, advance_of_le hle, add_ofNat_eq] at heff
    exact (exec_of_effect_flow rfl heff).trans (congrArg Host.Outcome.next (request_eq_withReg _ _))
  · have hbad : ¬ (1 ≤ (s.reg a).toNat ∧ (s.reg a).toNat ≤ 8) := by
      unfold x at hn
      omega
    rw [requestedLine_of_not_le hbad, bind_error] at heff
    exact exec_of_effect_error heff
  · rw [requestedLine_of_le ⟨h1, h8⟩, bind_ok, advance_of_gt hgt] at heff
    exact exec_of_effect_error heff

end Sys2Proof.Proofs
end

section
/-! Interrupt entry and return (60_exceptions.md R149, 42_flow.md R116): the nine bytes of the frame, what the return reads
from them, and so the state that a return right after an entry restores. -/

namespace Sys2Proof.Proofs

open Sys2Proof.Machine Sys2Proof.Claims

/-! ### The return -/

/-- SP stands after the seven registers. -/
theorem sp_foldl_popReg_restoredRegs (s : State) : (restoredRegs.foldl State.popReg s).sp = s.sp + 7 :=
  State.foldl_popReg_sp restoredRegs s (by decide)

/-- The k-th register restored takes the k-th byte from the top of the stack. -/
theorem interruptReturn_reg (s : State) {k : Nat} (hk : k < 7) :
    s.interruptReturn.reg (restoredRegs[k]'hk) = s.load (s.sp + BitVec.ofNat 8 k) := by
  have hne : restoredRegs[k]'hk ≠ Config.spIndex := by
    revert k
    decide
  unfold State.interruptReturn
  change (restoredRegs.foldl State.popReg s).pop.2.pop.2.reg _ = _
  rw [State.reg_pop, if_neg hne, State.reg_pop, if_neg hne]
  exact State.foldl_popReg_reg restoredRegs s k hk (by decide) (by decide)

theorem interruptReturn_sp (s : State) : s.interruptReturn.sp = s.sp + 9 := by
  change (restoredRegs.foldl State.popReg s).pop.2.pop.2.sp = _
  rw [State.sp_pop, State.sp_pop, sp_foldl_popReg_restoredRegs, BitVec.add_assoc, BitVec.add_assoc]
  rfl

theorem interruptReturn_fl (s : State) : s.interruptReturn.fl = s.load (s.sp + 7) := by
  change (restoredRegs.foldl State.popReg s).pop.1 = _
  rw [State.pop_value, State.foldl_popReg_load, sp_foldl_popReg_restoredRegs]

theorem interruptReturn_pc (s : State) : s.interruptReturn.pc = s.load (s.sp + 8) := by
  change (restoredRegs.foldl State.popReg s).pop.2.pop.1 = _
  rw [State.pop_value, State.load_pop, State.foldl_popReg_load, State.sp_pop, sp_foldl_popReg_restoredRegs,
    BitVec.add_assoc]
  rfl

/-- The return changes registers, FL and the PC only. -/
theorem interruptReturn_parts (s : State) : { s.interruptReturn with regs := s.regs, fl := s.fl, pc := s.pc } = s := by
  simp only [State.interruptReturn_mem, State.interruptReturn_running, State.interruptReturn_fatal,
    State.interruptReturn_out, State.interruptReturn_inputs, State.interruptReturn_drawn, State.interruptReturn_host,
    State.interruptReturn_life]

/-- A state that is another but for registers, FL and the PC, the other way round. -/
theorem eq_with_of_parts {s t : State} (h : { t with regs := s.regs, fl := s.fl, pc := s.pc } = s) :
    t = { s with regs := t.regs, fl := t.fl, pc := t.pc } :=
  congrArg (fun u : State => { u with regs := t.regs, fl := t.fl, pc := t.pc }) h

theorem interruptReturn_load (s : State) (b : Byte) : s.interruptReturn.load b = s.load b :=
  congrArg (Memory.get · b.toNat) s.interruptReturn_mem

theorem exec_iret (s : State) : exec .iret s = .next s.interruptReturn := exec_of_effect_flow rfl rfl

/-- Settles O33: the registers one by one, FL and the PC, on the state that the return leaves alone. -/
theorem interruptReturnResult : Obligations.InterruptReturnResult := by
  intro s
  have hregs : s.interruptReturn.regs = #v[s.load (s.sp + 6), s.load (s.sp + 5), s.load (s.sp + 4), s.load (s.sp + 3),
      s.load (s.sp + 2), s.load (s.sp + 1), s.load s.sp, s.sp + 9] := by
    apply Vector.ext
    intro j hj
    match j, hj with
    | 0, _ => exact interruptReturn_reg s (k := 6) (by decide)
    | 1, _ => exact interruptReturn_reg s (k := 5) (by decide)
    | 2, _ => exact interruptReturn_reg s (k := 4) (by decide)
    | 3, _ => exact interruptReturn_reg s (k := 3) (by decide)
    | 4, _ => exact interruptReturn_reg s (k := 2) (by decide)
    | 5, _ => exact interruptReturn_reg s (k := 1) (by decide)
    | 6, _ => exact (interruptReturn_reg s (k := 0) (by decide)).trans (congrArg s.load (BitVec.add_zero s.sp))
    | 7, _ => exact interruptReturn_sp s
  rw [exec_iret, ← hregs, ← interruptReturn_fl, ← interruptReturn_pc]
  exact congrArg Host.Outcome.next (eq_with_of_parts (interruptReturn_parts s))

/-! ### The entry -/

theorem acknowledge_reg_other (s : State) (i : Index) {j : Index} (hj : j ≠ Config.isIndex) :
    (s.acknowledge i).reg j = s.reg j := (s.reg_acknowledge i j).trans (if_neg hj)

theorem acknowledge_sp (s : State) (i : Index) : (s.acknowledge i).sp = s.sp := acknowledge_reg_other s i (by decide)

/-- Byte k of the nine saved stands at the k-th address below the old top of the stack. -/
theorem interruptEntry_load (s : State) (i : Index) {k : Nat} (hk : k < 9) :
    (s.interruptEntry i).load (s.sp - BitVec.ofNat 8 (k + 1)) = (s.acknowledge i).context[k]'hk := by
  rw [← acknowledge_sp s i]
  exact State.foldl_push_load (s.acknowledge i).context (s.acknowledge i) k hk (Nat.le_of_ble_eq_true rfl)

/-- The cells outside the frame keep their bytes. -/
theorem interruptEntry_load_other (s : State) (i : Index) {b : Byte}
    (hb : ∀ k : Nat, 1 ≤ k → k ≤ 9 → b ≠ s.sp - BitVec.ofNat 8 k) : (s.interruptEntry i).load b = s.load b := by
  refine State.foldl_push_load_other (s.acknowledge i).context (s.acknowledge i) b fun k hk => ?_
  rw [acknowledge_sp]
  exact hb (k + 1) (Nat.le_add_left 1 k) hk

theorem interruptEntry_sp (s : State) (i : Index) : (s.interruptEntry i).sp = s.sp - 9 :=
  (State.foldl_push_sp (s.acknowledge i).context (s.acknowledge i)).trans
    (congrArg (· - (9 : Byte)) (acknowledge_sp s i))

/-- Settles O52: the frame byte by byte, the cells outside it, and the parts that the entry leaves alone. -/
theorem interruptEntryFrame : Obligations.InterruptEntryFrame := by
  intro s i
  have hreg : ∀ j : Index, j < 6 → (s.acknowledge i).reg j = s.reg j := fun j hj => acknowledge_reg_other s i hj.ne
  have his : (s.acknowledge i).reg 6 = (s.interruptEntry i).is := (interruptEntry_reg s i (by decide)).symm
  refine ⟨interruptEntry_load s i (k := 0) (by decide), interruptEntry_load s i (k := 1) (by decide),
    (interruptEntry_load s i (k := 2) (by decide)).trans (hreg 0 (by decide)),
    (interruptEntry_load s i (k := 3) (by decide)).trans (hreg 1 (by decide)),
    (interruptEntry_load s i (k := 4) (by decide)).trans (hreg 2 (by decide)),
    (interruptEntry_load s i (k := 5) (by decide)).trans (hreg 3 (by decide)),
    (interruptEntry_load s i (k := 6) (by decide)).trans (hreg 4 (by decide)),
    (interruptEntry_load s i (k := 7) (by decide)).trans (hreg 5 (by decide)),
    (interruptEntry_load s i (k := 8) (by decide)).trans his,
    interruptEntry_is s i, fun b hb => interruptEntry_load_other s i hb, interruptEntry_sp s i, fun j hj => ?_,
    interruptEntry_pc s i, s.interruptEntry_parts i⟩
  have hsp : j ≠ Config.spIndex := (hj.trans (by decide)).ne
  rw [interruptEntry_reg s i hsp, hreg j hj]

/-! ### Return right after entry -/

/-- The return reads the frame from the other end: byte k from the top is the one saved as number 8 - k. -/
theorem interruptEntry_load_from_top (s : State) (i : Index) {k : Nat} (hk : k < 9) :
    (s.interruptEntry i).load ((s.interruptEntry i).sp + BitVec.ofNat 8 k) =
      (s.acknowledge i).context[8 - k]'(show 8 - k < 9 by omega) := by
  have haddr : (s.interruptEntry i).sp + BitVec.ofNat 8 k = s.sp - BitVec.ofNat 8 (8 - k + 1) := by
    rw [interruptEntry_sp]
    apply BitVec.eq_of_toNat_eq
    simp
    omega
  rw [haddr]
  exact interruptEntry_load s i _

/-- The registers are restored as they were saved, IS with the serviced bit clear. -/
theorem interruptReturn_interruptEntry_reg (s : State) (i : Index) {j : Index} (hj : j ≠ Config.spIndex) :
    (s.interruptEntry i).interruptReturn.reg j = (s.acknowledge i).reg j := by
  have hcover : ∀ j : Index, j ≠ Config.spIndex → ∃ k, ∃ hk : k < 7, restoredRegs[k]'hk = j := by decide
  obtain ⟨k, hk, rfl⟩ := hcover j hj
  rw [interruptReturn_reg _ hk, interruptEntry_load_from_top s i (by omega)]
  match k, hk with
  | 0, _ | 1, _ | 2, _ | 3, _ | 4, _ | 5, _ | 6, _ => rfl

theorem interruptReturn_interruptEntry_sp (s : State) (i : Index) : (s.interruptEntry i).interruptReturn.sp = s.sp := by
  rw [interruptReturn_sp, interruptEntry_sp]
  exact sub_add_cancel s.sp 9

theorem interruptReturn_interruptEntry_pc (s : State) (i : Index) : (s.interruptEntry i).interruptReturn.pc = s.pc :=
  (interruptReturn_pc _).trans (interruptEntry_load_from_top s i (k := 8) (by decide))

theorem interruptReturn_interruptEntry_fl (s : State) (i : Index) : (s.interruptEntry i).interruptReturn.fl = s.fl :=
  (interruptReturn_fl _).trans (interruptEntry_load_from_top s i (k := 7) (by decide))

/-- Entry and return together change registers and memory only. -/
theorem interruptReturn_interruptEntry_parts (s : State) (i : Index) :
    { (s.interruptEntry i).interruptReturn with regs := s.regs, mem := s.mem } = s := by
  simp only [interruptReturn_interruptEntry_pc, interruptReturn_interruptEntry_fl, State.interruptReturn_running,
    State.interruptReturn_fatal, State.interruptReturn_out, State.interruptReturn_inputs, State.interruptReturn_drawn,
    State.interruptReturn_host, State.interruptReturn_life, State.interruptEntry_running, State.interruptEntry_fatal,
    State.interruptEntry_out, State.interruptEntry_inputs, State.interruptEntry_drawn, State.interruptEntry_host,
    State.interruptEntry_life]

/-- Settles O53: the check enters the chosen line, and the return reads back the frame the entry has just written. -/
theorem interruptReturnRestoresThePreInterruptState : Obligations.InterruptReturnRestoresThePreInterruptState := by
  intro s i hi
  rw [dispatchCheck_of_chosen hi]
  refine ⟨interruptEntry_pc s i, ?_, _, exec_iret _, interruptReturn_interruptEntry_pc s i,
    interruptReturn_interruptEntry_fl s i, fun j hj => ?_, fun j => ?_, fun b hb => ?_,
    interruptReturn_interruptEntry_parts s i⟩
  · rw [interruptEntry_is, decide_eq_false (not_not_intro rfl), Bool.and_false]
  · by_cases hsp : j = Config.spIndex
    · subst hsp
      exact interruptReturn_interruptEntry_sp s i
    · rw [interruptReturn_interruptEntry_reg s i hsp, acknowledge_reg_other s i hj]
  · have his : (s.interruptEntry i).interruptReturn.is = (s.acknowledge i).is :=
      interruptReturn_interruptEntry_reg s i (by decide)
    rw [his, State.is_acknowledge]
  · rw [interruptReturn_load, interruptEntry_load_other s i hb]

end Sys2Proof.Proofs
end

section
/-! The cycle (43_cycle.md R125 to R131): the bytes the fetch sees, key events, stop, tick, and what a step executes. -/

namespace Sys2Proof.Proofs

open Sys2Proof.Machine Sys2Proof.Claims

/-! ### The bytes at the PC -/

/-- The fetch sees three cells from the PC upward, fewer at the end of memory. -/
theorem codeBytes_eq_map (s : State) : s.codeBytes =
    (List.range (min 3 (256 - s.pc.toNat))).map fun k => Memory.get s.mem (s.pc.toNat + k) := by
  have hlt := s.pc.isLt
  rw [State.codeBytes_eq, State.load]
  split
  · rw [show min 3 (256 - s.pc.toNat) = 3 by omega]
    rfl
  · split
    · rw [‹s.pc.toNat = 254›]
      rfl
    · rw [show s.pc.toNat = 255 by omega]
      rfl

theorem codeBytes_getElem?_eq_some_iff (s : State) {k : Nat} (hk : k < 3) (v : Byte) :
    s.codeBytes[k]? = some v ↔ s.memRead (s.pc.toNat + k) = .ok v := by
  rw [codeBytes_eq_map, List.getElem?_map]
  rcases Nat.lt_or_ge 255 (s.pc.toNat + k) with hgt | hle
  · rw [memRead_of_gt s hgt, List.getElem?_eq_none (by rw [List.length_range]; omega)]
    exact iff_of_false nofun nofun
  · rw [memRead_of_le s hle, List.getElem?_range (by omega), Option.map_some, Option.some_inj, Except.ok.injEq]

/-- The opcode byte is there for every PC; the operand bytes end with memory. -/
theorem exists_codeBytes_eq_cons (s : State) :
    ∃ bytes, s.codeBytes = s.load s.pc :: bytes ∧ bytes.length = min 2 (255 - s.pc.toNat) := by
  have hlt := s.pc.isLt
  obtain ⟨n, hn⟩ : ∃ n, min 3 (256 - s.pc.toNat) = n + 1 := ⟨min 2 (255 - s.pc.toNat), by omega⟩
  refine ⟨_, (codeBytes_eq_map s).trans (hn ▸ congrArg _ List.range_succ_eq_map), ?_⟩
  rw [List.length_map, List.length_map, List.length_range]
  omega

theorem encode_length_le (i : Instr) : (encode i).length ≤ 3 := by
  cases i <;> exact Nat.le_of_ble_eq_true rfl

/-- The bytes at the PC begin with an encoding exactly when memory holds it there (20_memory.md R33). -/
theorem encode_prefix_codeBytes_iff (s : State) (i : Instr) : encode i <+: s.codeBytes ↔
    ∀ (k : Nat) (h : k < (encode i).length), s.memRead (s.pc.toNat + k) = .ok (encode i)[k] := by
  rw [List.prefix_iff_getElem?]
  exact forall₂_congr fun k hk => codeBytes_getElem?_eq_some_iff s (hk.trans_le (encode_length_le i)) _

/-! ### Fetch and execute -/

theorem fetchAndExec_of_decode {s : State} {i : Instr} {rest : List Byte} (h : decode s.codeBytes = .ok (i, rest)) :
    fetchAndExec s = exec i s := by
  rw [fetchAndExec, State.fetch, h]

theorem fetchAndExec_of_decode_error {s : State} {e : DecodeError} (h : decode s.codeBytes = .error e) :
    fetchAndExec s = .next (s.raise (causeOf e)) := by
  rw [fetchAndExec, State.fetch, h]

/-- An instruction whose bytes stand at the PC is the one that is executed. -/
theorem fetchAndExec_of_encode_prefix {s : State} {i : Instr} (h : encode i <+: s.codeBytes) :
    fetchAndExec s = exec i s := by
  obtain ⟨rest, hrest⟩ := h
  exact fetchAndExec_of_decode (hrest ▸ decodeInvertsEncode i rest)

/-- Step 4's refusals in terms of the opcode byte (30_encoding.md R59, R60). -/
theorem legalFields_split_eq_false_iff (ir : Byte) : legalFields (split ir) = false ↔
    ir.toNat / 64 = 3 ∨ (ir.getLsbD 5 = true ∧ ir.getLsbD 4 = true) := by
  have haa : (split ir).aa = 3 ↔ ir.toNat / 64 = 3 := by
    rw [← split_aa_toNat]
    exact BitVec.toNat_inj.symm
  rw [← haa, ← Bool.not_eq_true, legalFields_iff, not_and_or, not_not, Bool.not_eq_false, Bool.and_eq_true]
  rfl

/-- Settles O44: the cycle gets to the fetch, which decodes the instruction. -/
theorem stepRunsDecodedInstruction : Obligations.StepRunsDecodedInstruction := by
  intro s i rest hrun hbefore h
  rw [step_of_running s hrun, cycle, if_pos hbefore, fetchAndExec_of_decode h]

/-- Settles O46: the cases of the decoder on the bytes at the PC, with the byte's fields as numbers. -/
theorem fetchFaultsInOrder : Obligations.FetchFaultsInOrder := by
  intro s
  obtain ⟨bytes, hcode, hlen⟩ := exists_codeBytes_eq_cons s
  have haa := split_aa_toNat (s.load s.pc)
  have hillegal := legalFields_split_eq_false_iff (s.load s.pc)
  have hlegal : legalFields (split (s.load s.pc)) = true → (split (s.load s.pc)).aa.toNat ≤ 2 := by
    intro h
    have hne := ((legalFields_iff _).1 h).1
    bv_omega
  have hraise : ∀ {e c}, decode (s.load s.pc :: bytes) = .error e → causeOf e = c →
      fetchAndExec s = .next (fatalEnd s c) := by
    rintro e _ he rfl
    exact fetchAndExec_of_decode_error (hcode ▸ he)
  rcases decode_cases (s.load s.pc) bytes with
    ⟨hl, e, he, hc⟩ | ⟨hl, hshort, he⟩ | ⟨hl, hle, hmem, e, he, hc⟩ | ⟨hl, hle, hmem, i, rest, -, hbytes⟩
  · rw [if_pos (hillegal.1 hl)]
    exact hraise he hc
  · have hle2 := hlegal hl
    rw [if_neg (fun h => by cases hl.symm.trans (hillegal.2 h)), if_pos (by omega)]
    exact hraise he rfl
  · rw [if_neg (fun h => by cases hl.symm.trans (hillegal.2 h)), if_neg (by omega), if_pos hmem]
    exact hraise he hc
  · rw [if_neg (fun h => by cases hl.symm.trans (hillegal.2 h)), if_neg (by omega), if_neg (not_not_intro hmem)]
    have hprefix : encode i <+: s.codeBytes := ⟨rest, (hcode.trans hbytes).symm⟩
    exact ⟨i, fetchAndExec_of_encode_prefix hprefix, (encode_prefix_codeBytes_iff s i).1 hprefix⟩

/-! ### Taking the input -/

theorem exists_takeInput_eq (s : State) :
    ∃ inputs drawn, s.takeInput.2 = { s with inputs := inputs, drawn := drawn } := by
  unfold State.takeInput
  split <;> exact ⟨_, _, rfl⟩

/-- Settles O45: without events, lines and tick the fetch sees the state before the step. -/
theorem quietStepRunsTheInstructionInMemory : Obligations.QuietStepRunsTheInstructionInMemory := by
  intro s later i hrun hin hquiet hmem
  have hlater : s.takeInput.2 = later := congrArg Prod.snd hin
  refine ⟨?_, hlater ▸ s.takeInput_frame⟩
  obtain ⟨inputs, drawn, hparts⟩ := exists_takeInput_eq s
  obtain rfl : later = { s with inputs := inputs, drawn := drawn } := hlater.symm.trans hparts
  have hprefix : encode i <+: s.codeBytes := (encode_prefix_codeBytes_iff s i).2 hmem
  rw [step_of_running_events hrun hin hrun, State.applyEvents,
    dispatchCheck_of_not_serviceable (s := { s with inputs := inputs, drawn := drawn }) hquiet]
  exact fetchAndExec_of_encode_prefix hprefix

/-! ### Events -/

/-- One more key: its payload is the last, and IS bit 1 is set whether or not it was (60_exceptions.md R154). -/
theorem afterKeys_keyEvent {s t : State} {keys : List Byte} (h : AfterKeys s t keys) (v : Byte) :
    AfterKeys s (t.keyEvent v) (keys ++ [v]) := by
  obtain ⟨hparts, hmem, his, hreg⟩ := h
  refine ⟨hparts, fun b => ?_, ?_, fun j hj => ?_⟩
  · have hput : Memory.get (t.keyEvent v).mem b = if b = 0xF4 then v else Memory.get t.mem b :=
      Memory.get_put t.mem 0xF4 b v
    rw [hput, hmem]
    by_cases hb : b = 0xF4
    · rw [if_pos hb, if_pos hb, List.getLastD_concat]
    · rw [if_neg hb, if_neg hb, if_neg hb]
  · have hkey : (t.keyEvent v).is = t.is ||| 0b00000010 := State.reg_request _ Config.eventLine Config.isIndex
    rw [hkey, his, if_neg (List.append_ne_nil_of_right_ne_nil keys (List.cons_ne_nil v []))]
    split
    · rfl
    · rw [BitVec.or_assoc, BitVec.or_self]
  · exact ((State.reg_request _ Config.eventLine j).trans (if_neg hj)).trans (hreg j hj)

theorem afterKeys_foldl (s : State) (keys : List Byte) : AfterKeys s (keys.foldl State.keyEvent s) keys := by
  induction keys using List.reverseRecOn with
  | nil => exact ⟨rfl, fun b => (ite_self _).symm, rfl, fun _ _ => rfl⟩
  | append_singleton keys v ih =>
    rw [List.foldl_concat]
    exact afterKeys_keyEvent ih v

/-- Settles O47: a batch of keys is the key event of each in order. -/
theorem keyEventsAreRecorded : Obligations.KeyEventsAreRecorded := by
  intro s keys
  have hkeys := State.applyEvents_keys keys [] s
  rw [List.append_nil] at hkeys
  rw [hkeys]
  exact afterKeys_foldl s keys

theorem afterKeys_stopped {s t : State} {keys : List Byte} (h : AfterKeys s t keys) :
    AfterKeys { s with running := false } { t with running := false } keys := by
  obtain ⟨hparts, hmem, his, hreg⟩ := h
  exact ⟨congrArg (fun u : State => { u with running := false }) hparts, hmem, his, hreg⟩

/-- Settles O48: the keys before the stop, then the running flag, and the cycle ends there. -/
theorem stopEndsTheRunBeforeTheFetch : Obligations.StopEndsTheRunBeforeTheFetch := by
  intro s later keys e rest tick hrun he hin
  have hstop : State.applyEvents (keys.map .key ++ e :: rest) later =
      { keys.foldl State.keyEvent later with running := false } := by
    rw [State.applyEvents_keys]
    rcases he with rfl | rfl <;> rfl
  refine ⟨_, afterKeys_stopped (afterKeys_foldl later keys), ?_⟩
  rw [step_of_takeInput hrun hin, cycle_of_stopped _ _ (congrArg State.running hstop), hstop]

/-! ### The tick -/

theorem timerTick_true (s : State) : s.timerTick true = withTick s := rfl

/-- Settles O49: the tick follows the check, so what the check entered, or the old PC, is fetched with the bit pending. -/
theorem tickWaitsForTheNextCheck : Obligations.TickWaitsForTheNextCheck := by
  refine ⟨fun s => ⟨timerTick_true s, rfl, s.is_request Config.timerLine⟩, ?_⟩
  rintro s later _ events hrun hin rfl hev
  have hstep := step_of_running_events hrun hin hev
  refine ⟨fun hnone => ⟨?_, ?_⟩, fun i hi => ?_⟩
  · rw [hstep, dispatchCheck_of_not_serviceable hnone, timerTick_true]
  · change (State.applyEvents events later).pc = s.pc
    rw [State.applyEvents_pc, ← s.takeInput_pc, hin]
  · rw [hstep, dispatchCheck_of_chosen hi, timerTick_true]

end Sys2Proof.Proofs
end

section
/-! The host's commands (70_reset_and_hazards.md R170 to R172) and the end of a run (43_cycle.md R133). -/

namespace Sys2Proof.Proofs

open Sys2Proof.Machine Sys2Proof.Claims

/-! ### Reset -/

/-- Settles O54: the reset keeps of the state before it only what it says it keeps. -/
theorem resetIsTheSameFromAnyState : Obligations.ResetIsTheSameFromAnyState := by
  intro s rest hrun hhost
  refine ⟨{ State.reset with host := rest, drawn := s.drawn }, ?_, rfl, rfl, rfl, Memory.get_nil, rfl, rfl, rfl, rfl,
    rfl⟩
  rw [step_of_not_running s hrun, hostStep_of_reset hhost]
  rfl

/-! ### Load and start -/

theorem step_of_load {s : State} {image : List Byte} {rest : List HostCommand} (hrun : s.running = false)
    (hlife : s.life = .reset) (hhost : s.host = .load image :: rest) :
    step s = .next ({ s with host := rest }.hostLoad image) := by
  rw [step_of_not_running s hrun, State.hostStep, hhost]
  exact if_pos hlife

theorem step_of_start {s : State} {rest : List HostCommand} (hrun : s.running = false) (hlife : s.life = .loaded)
    (hhost : s.host = .start :: rest) : step s = .next { s with host := rest }.hostStart := by
  rw [step_of_not_running s hrun, State.hostStep, hhost]
  exact if_pos hlife

theorem step_of_start_refused {s : State} {rest : List HostCommand} (hrun : s.running = false) (hlife : s.life ≠ .loaded)
    (hhost : s.host = .start :: rest) : step s = .refused (.hostOutOfOrder .start) := by
  rw [step_of_not_running s hrun, State.hostStep, hhost]
  exact if_neg hlife

theorem hostLoad_of_le (s : State) {image : List Byte} (h : image.length ≤ 256) :
    s.hostLoad image = { s with mem := Memory.putAll s.mem 0 image, life := .loaded } := if_pos h

theorem hostLoad_of_gt (s : State) {image : List Byte} (h : image.length > 256) : s.hostLoad image = s :=
  if_neg (Nat.not_le.2 h)

theorem run_succ_of_next {M : Host.Core} {s t : M.State} (h : M.step s = .next t) (n : Nat) :
    M.run (n + 1) s = M.run n t := by
  rw [Host.Core.run, h]

theorem run_succ_of_refused {M : Host.Core} {s : M.State} {r : M.Refusal} (h : M.step s = .refused r) (n : Nat) :
    M.run (n + 1) s = .refused r := by
  rw [Host.Core.run, h]

/-- The image's bytes from address 0 upward, above it the memory before. -/
theorem get_putAll_zero (m : Memory) (image : List Byte) (b : Nat) :
    Memory.get (Memory.putAll m 0 image) b = (image[b]?).getD (Memory.get m b) := by
  rw [Memory.get_putAll]
  by_cases hb : b < image.length
  · rw [dif_pos ⟨b.zero_le, hb⟩, List.getElem?_eq_getElem hb]
    rfl
  · rw [dif_neg (fun h => hb h.2), List.getElem?_eq_none (Nat.le_of_not_lt hb)]
    rfl

/-- Settles O55: the load by the size of the image, then the start, which a load that was refused leaves out of order. -/
theorem loadThenStartBeginsTheRun : Obligations.LoadThenStartBeginsTheRun := by
  intro s image rest hrun hlife hhost
  have hload := step_of_load hrun hlife hhost
  refine ⟨fun hle => ?_, fun hgt => ?_⟩
  · rw [hostLoad_of_le _ hle] at hload
    have hstart := step_of_start
      (s := { s with mem := Memory.putAll s.mem 0 image, life := .loaded, host := .start :: rest }) hrun rfl rfl
    have hrun2 := (run_succ_of_next (M := core) hload 1).trans (run_succ_of_next (M := core) hstart 0)
    exact ⟨_, hrun2, get_putAll_zero s.mem image, rfl, rfl, rfl, rfl⟩
  · rw [hostLoad_of_gt _ hgt] at hload
    have hstart := step_of_start_refused (s := { s with host := .start :: rest }) hrun (by rw [hlife]; nofun) rfl
    exact ⟨hload, (run_succ_of_next (M := core) hload 1).trans (run_succ_of_refused (M := core) hstart 0)⟩

/-! ### The end of a run -/

/-- Settles O56: without a command such a state steps to itself. -/
theorem endedRunsStayAsTheyAre : Obligations.EndedRunsStayAsTheyAre := fun _ n hrun hhost =>
  run_of_step_self (M := core) (step_of_no_command hrun hhost) n

end Sys2Proof.Proofs
end
